-- ==== Sys2Proof/Word.lean ====
section
/-! DEFINITION. The word types of the block: bytes of LMEM, 16-bit dimensions, 32-bit registers. -/

namespace Sys2Proof

/-- One byte of LMEM (20_memory.md R60). -/
abbrev Byte := BitVec 8

/-- A dimension register's stored bits (10_state.md R30). -/
abbrev Half := BitVec 16

/-- A register, and a command word (10_state.md R22, 30_encoding.md R80). -/
abbrev Word := BitVec 32

end Sys2Proof
end

