-- ==== Sys2Proof/Syntax.lean ====
section
/-! DEFINITION. The commands: one constructor per row of spec/opcode_table.json (30_encoding.md R82).
A command word has no register field and no immediate field (R81), so no constructor has an argument. -/

namespace Sys2Proof

inductive Instr where
  | nop | eRed | eAdd | eSub | eNeg | eMul | eEnc | eDec | eEq | eCteq
  | mAdd | mSub | mMul | mTranspose | mEq | mCteq
  | sSample | sSampleMat
  | cEncode | cDecode | cPack | cUnpack | cStoreLe | cLoadLe
  deriving DecidableEq, Repr

end Sys2Proof
end

