-- ==== Sys2Proof/Decode.lean ====
section
/-! DEFINITION. The command decoder (30_encoding.md R80, R82, R85, R87), the encoder, and the host's
view of the decoder by opcode-table words. -/

namespace Sys2Proof

/-- Why a word is no command (R85): a bit of the field RSVD is 1, or the opcode is not in the map of R82;
or, for a list of bytes, that it is not the four bytes of one word. -/
inductive DecodeReject where
  | reservedBits | reservedOpcode | notOneWord
  deriving DecidableEq, Repr

/-- The field RSVD, bits 31:8 (R80). -/
def wordReserved (w : Word) : BitVec 24 := w.extractLsb' 8 24

/-- The field FAM, bits 7:4 (R80). -/
def wordFam (w : Word) : BitVec 4 := w.extractLsb' 4 4

/-- The field FN, bits 3:0 (R80). -/
def wordFn (w : Word) : BitVec 4 := w.extractLsb' 0 4

/-- Family 0, ring element (R82). -/
def decodeRing : BitVec 4 → Option Instr
  | 0x0#4 => some .nop
  | 0x1#4 => some .eRed
  | 0x2#4 => some .eAdd
  | 0x3#4 => some .eSub
  | 0x4#4 => some .eNeg
  | 0x5#4 => some .eMul
  | 0x6#4 => some .eEnc
  | 0x7#4 => some .eDec
  | 0x8#4 => some .eEq
  | 0x9#4 => some .eCteq
  | _ => none

/-- Family 1, matrix (R82). -/
def decodeMatrix : BitVec 4 → Option Instr
  | 0x0#4 => some .mAdd
  | 0x1#4 => some .mSub
  | 0x2#4 => some .mMul
  | 0x3#4 => some .mTranspose
  | 0x4#4 => some .mEq
  | 0x5#4 => some .mCteq
  | _ => none

/-- Family 2, sampler (R82). -/
def decodeSampler : BitVec 4 → Option Instr
  | 0x0#4 => some .sSample
  | 0x1#4 => some .sSampleMat
  | _ => none

/-- Family 3, codec (R82). -/
def decodeCodec : BitVec 4 → Option Instr
  | 0x0#4 => some .cEncode
  | 0x1#4 => some .cDecode
  | 0x2#4 => some .cPack
  | 0x3#4 => some .cUnpack
  | 0x4#4 => some .cStoreLe
  | 0x5#4 => some .cLoadLe
  | _ => none

/-- The opcode map by family and function (R80, R82). -/
def decodeOpcode (fam fn : BitVec 4) : Option Instr :=
  match fam with
  | 0x0#4 => decodeRing fn
  | 0x1#4 => decodeMatrix fn
  | 0x2#4 => decodeSampler fn
  | 0x3#4 => decodeCodec fn
  | _ => none

/-- Decoding is a total function of the 32-bit word (R87). -/
def decode (w : Word) : Except DecodeReject Instr :=
  if wordReserved w ≠ 0 then .error .reservedBits
  else match decodeOpcode (wordFam w) (wordFn w) with
    | some i => .ok i
    | none => .error .reservedOpcode

/-- A command word as the four bytes of the host bus, least significant first (20_memory.md R61). -/
def decodeBytes : List Byte → Except DecodeReject Instr
  | [b0, b1, b2, b3] => decode (b3 ++ b2 ++ b1 ++ b0)
  | _ => .error .notOneWord

/-- The opcode OP = FAM * 16 + FN of each command (R82). -/
def opcode : Instr → BitVec 8
  | .nop => 0x00 | .eRed => 0x01 | .eAdd => 0x02 | .eSub => 0x03 | .eNeg => 0x04
  | .eMul => 0x05 | .eEnc => 0x06 | .eDec => 0x07 | .eEq => 0x08 | .eCteq => 0x09
  | .mAdd => 0x10 | .mSub => 0x11 | .mMul => 0x12 | .mTranspose => 0x13 | .mEq => 0x14 | .mCteq => 0x15
  | .sSample => 0x20 | .sSampleMat => 0x21
  | .cEncode => 0x30 | .cDecode => 0x31 | .cPack => 0x32 | .cUnpack => 0x33
  | .cStoreLe => 0x34 | .cLoadLe => 0x35

/-- The word of a command: RSVD = 0 above the opcode (R80). -/
def encode (i : Instr) : Word := (0 : BitVec 24) ++ opcode i

/-- The word that an opcode-table row's bits stand for: the row is one word, bit 0 its least
significant bit, and every bit from `nbits` up is 0. A number that needs more than 32 bits is no
command word (R80: "one format, one length"). -/
def tableWord (nbits w : Nat) : Option Word :=
  if w % 2 ^ nbits < 2 ^ 32 then some (BitVec.ofNat 32 (w % 2 ^ nbits)) else none

/-- What the decoder reads from an opcode-table row's bits. -/
def decodeTableWord (nbits w : Nat) : Option Instr :=
  match tableWord nbits w with
  | none => none
  | some v =>
    match decode v with
    | .ok i => some i
    | .error _ => none

end Sys2Proof
end

