-- ==== Sys2Proof/Config.lean ====
section
/-! DEFINITION. What an implementation fixes (00_scope.md R9) and the free values (20_memory.md R79). -/

namespace Sys2Proof.Config

/-- The parameters of the block (00_scope.md R9): the size of LMEM, the host addresses `CSR_BASE` of the register
block and `LMEM_BASE` of the LMEM window, and the three frequency tables `CHI[0]` (level 640), `CHI[1]` (976) and
`CHI[2]` (1344). R9 says of the two bases "platform choice; no rule reads it": any value is legal, and no
definition of the model reads them (log 18). -/
structure Params where
  lmemSize : Nat
  csrBase  : Nat
  lmemBase : Nat
  chi640   : List Nat
  chi976   : List Nat
  chi1344  : List Nat
  deriving DecidableEq, Repr

/-- The default frequency table of level 640 (42_error_sampler.md R161). -/
def chi640Default : List Nat :=
  [9288, 8720, 7216, 5264, 3384, 1918, 958, 422, 164, 56, 17, 4, 1]

/-- The default frequency table of level 976 (R161). -/
def chi976Default : List Nat :=
  [11278, 10277, 7774, 4882, 2545, 1101, 396, 118, 29, 6, 1]

/-- The default frequency table of level 1344 (R161). -/
def chi1344Default : List Nat :=
  [18286, 14320, 6876, 2023, 364, 40, 2]

/-- DESIGN CHOICE (log 4): the parameters of the block that `State.reset` describes.
4096 bytes is the size 95_test_vectors.md uses, and the tables are the defaults of R161. The bases are the
platform's (log 18): the register block at 0 and the LMEM window behind its 4 KiB. -/
def Params.default : Params :=
  { lmemSize := 4096, csrBase := 0x0000, lmemBase := 0x1000,
    chi640 := chi640Default, chi976 := chi976Default, chi1344 := chi1344Default }

/-- The free value of one byte: what the n-th draw gives (20_memory.md R79, 70_reset_and_hazards.md
R254). It has no body, so nothing can be proved of its values (log 5). -/
opaque freeByte : Nat → Byte

end Sys2Proof.Config
end

