-- ==== Sys2Proof/Machine/State.lean ====
section
/-! DEFINITION. The state of the block (10_state.md R20 to R42), the inputs that reach it, and why a step can stop. -/

namespace Sys2Proof.Machine

/-- LMEM as the bytes written since reset: (address, byte) pairs, addresses strictly rising
(`Memory.wf` in Ops.lean). An address not listed has not been written, and reading it gives a free
draw (20_memory.md R79), so no listed byte is redundant and the form is canonical. -/
abbrev Memory := List Host.Cell

/-- CFG's stored fields (10_state.md R26). The other bits of CFG read 0 and store nothing. -/
structure Cfg where
  dsel : Bool
  bsel : BitVec 3
  pset : BitVec 2
  deriving DecidableEq, Repr

/-- The registers a successful issue copies into L (10_state.md R36). -/
structure OpRegs where
  cfg   : Cfg
  src0  : Word
  src1  : Word
  dst   : Word
  rows  : Half
  cols  : Half
  inner : Half
  opa   : Word
  opb   : Word
  deriving DecidableEq, Repr

/-- The latched command L (10_state.md R36): the opcode and the copied registers. -/
structure Latched where
  op   : Instr
  regs : OpRegs
  deriving DecidableEq, Repr

/-- The causes of a command error (60_exceptions.md R223). -/
inductive ErrCode where
  | illegalCmd | badCfg | badDim | misaligned | outOfRange | overlap | busy
  deriving DecidableEq, Repr

/-- The registers by name (10_state.md R22); `cdfT z` is CDF_Tz. -/
inductive Reg where
  | id | ctrl | status | cfg | cmd | src0 | src1 | dst | rows | cols | inner | opa | opb | res
  | lmemSize | cdfLen | cdfT (z : Nat)
  deriving DecidableEq, Repr

/-- A host access to the register block: its width in bytes and its offset from CSR_BASE (20_memory.md R67). -/
inductive CsrAccess where
  | read (width offset : Nat)
  | write (width offset : Nat) (v : Word)
  deriving DecidableEq, Repr

/-- A host access of `n` bytes to LMEM address `a` (20_memory.md R68). A write carries 32 bits of data, of
which the low `n` bytes are stored. -/
inductive LmemAccess where
  | read (n a : Nat)
  | write (n a : Nat) (v : Word)
  deriving DecidableEq, Repr

/-- What can happen next (log 1): a host step (R19), the engine's turn (60_exceptions.md R224), a STATUS
write in the clock cycle of the completion (R226), or an edge of the reset pin (70_reset_and_hazards.md R250). -/
inductive Input where
  | csr (a : CsrAccess)
  | lmem (a : LmemAccess)
  | engine
  | statusWriteAtCompletion (w : Word)
  | resetAssert
  | resetRelease
  deriving DecidableEq, Repr

/-- The host port's last answer (20_memory.md R67, R68; 60_exceptions.md R236). `none`: no access has been
answered, or the bus is holding one. -/
inductive Response where
  | none | written | data (v : Word) | busError
  deriving DecidableEq, Repr

structure State where
  /-- CTRL.IE (R24). -/
  ie       : Bool
  /-- STATUS.DONE (R25, R40). -/
  done     : Bool
  /-- STATUS.ERR (R25, R40). -/
  err      : Bool
  /-- STATUS.ERRCODE (R25, 60_exceptions.md R223). -/
  errcode  : BitVec 4
  /-- CFG, SRC0, SRC1, DST, ROWS, COLS, INNER, OPA, OPB (R26, R28, R30, R31). -/
  regs     : OpRegs
  /-- RES (R32). -/
  res      : Word
  /-- LMEM (20_memory.md R60, R79). -/
  lmem     : Memory
  /-- The command in flight with its latched copy L; STATUS.BUSY is 1 exactly while it is present (R35, R36). -/
  inflight : Option Latched
  /-- The pin rst_n is low (70_reset_and_hazards.md R250). -/
  inReset  : Bool
  /-- The host LMEM access that the bus holds while BUSY = 1 (20_memory.md R69). -/
  stalled  : Option LmemAccess
  /-- The model's own: the host port's last answer (log 8). -/
  resp     : Response
  /-- The model's own: what happens next, in order (log 1). -/
  inputs   : List Input
  /-- The model's own: how many free draws have been taken (log 5). -/
  draws    : Nat
  /-- The parameters of the block (00_scope.md R9), changed by no step (log 4). -/
  params   : Config.Params
  deriving DecidableEq, Repr

/-- Why the machine stops. -/
inductive Fault where
  /-- Raised by a step in which a host access arrives while rst_n is low. 70_reset_and_hazards.md R250 gives the
  host no step then (93 U10: stuck). Safe (log 10). -/
  | hostAccessInReset
  /-- Raised by a completion whose latched command does not pass the issue checks of 60_exceptions.md R221.
  No run reaches one (R224: "It cannot fail"). Safe (log 3). -/
  | completionUnchecked
  deriving DecidableEq, Repr

/-- Why a command is refused. -/
inductive Refusal where
  /-- Raised by `exec` for a command that has no meaning yet; no arm uses it. Safe. -/
  | notModelled (mnemonic : String)
  deriving DecidableEq, Repr

/-- CFG after reset, 0x00000020: DSEL 0, BSEL 2, PSET 0 (10_state.md R26, R42). -/
def Cfg.reset : Cfg := { dsel := false, bsel := 2, pset := 0 }

/-- The operand registers after reset (R42). -/
def OpRegs.reset : OpRegs :=
  { cfg := Cfg.reset, src0 := 0, src1 := 0, dst := 0, rows := 0, cols := 0, inner := 0, opa := 0, opb := 0 }

/-- The block just out of hardware reset (R42, 70_reset_and_hazards.md R250, R251, R255): every register at its
reset value, no command in flight, no byte of LMEM written. The model's own fields start as logs 1, 5 and 8
say, and the parameters as log 4 says. -/
def State.reset : State :=
  { ie := false, done := false, err := false, errcode := 0, regs := OpRegs.reset, res := 0, lmem := [],
    inflight := none, inReset := false, stalled := none, resp := .none, inputs := [], draws := 0,
    params := Config.Params.default }

end Sys2Proof.Machine
end

