-- ==== Sys2Proof/Machine/Flags.lean ====
section
/-! DEFINITION. The status bits: BUSY, the error codes, the STATUS word, the interrupt output, and DONE. -/

namespace Sys2Proof.Machine

/-- STATUS.BUSY: 1 exactly while a command is in flight (10_state.md R35). -/
def State.busy (s : State) : Bool := s.inflight.isSome

/-- The code of an error in STATUS.ERRCODE (60_exceptions.md R223). -/
def ErrCode.code : ErrCode → BitVec 4
  | .illegalCmd => 1
  | .badCfg => 2
  | .badDim => 3
  | .misaligned => 4
  | .outOfRange => 5
  | .overlap => 6
  | .busy => 7

/-- STATUS as read: BUSY bit 0, DONE bit 1, ERR bit 2, bits 7:3 zero, ERRCODE bits 11:8, the rest zero
(10_state.md R25). -/
def State.statusWord (s : State) : Word :=
  (0 : BitVec 20) ++ s.errcode ++ (0 : BitVec 5) ++ BitVec.ofBool s.err ++ BitVec.ofBool s.done
    ++ BitVec.ofBool s.busy

/-- The interrupt output: IE and (DONE or ERR), a level (10_state.md R39, 60_exceptions.md R227). -/
def State.irq (s : State) : Bool := s.ie && (s.done || s.err)

/-- The end of every completion: DONE <- 1, BUSY <- 0 (60_exceptions.md R224, R225). What L held is dropped
with BUSY (10_state.md R36). -/
def State.finish (s : State) : State := { s with done := true, inflight := none }

end Sys2Proof.Machine
end

