-- ==== Sys2Proof/Machine/Ops.lean ====
section
/-! DEFINITION. The shared operations: LMEM bytes, little-endian words, sums, writing RES and LMEM, the
error action (the block's exception) and the clearing of STATUS (its return). -/

namespace Sys2Proof.Machine

/-! ### LMEM bytes (20_memory.md R60, R79) -/

/-- The byte last written at an address, if any was written since reset. -/
def Memory.lookup : Memory → Nat → Option Byte
  | [], _ => none
  | (k, b) :: m, a => if k = a then some b else Memory.lookup m a

/-- Write one byte, keeping the addresses strictly rising. -/
def Memory.set : Memory → Nat → Byte → Memory
  | [], a, v => [(a, v)]
  | (k, b) :: m, a, v =>
    if a < k then (a, v) :: (k, b) :: m
    else if a = k then (a, v) :: m
    else (k, b) :: Memory.set m a v

/-- The canonical form: addresses strictly rising. -/
def Memory.wf : Memory → Bool
  | [] => true
  | [_] => true
  | (a, _) :: (b, y) :: m => decide (a < b) && Memory.wf ((b, y) :: m)

/-- Every listed address is an address of LMEM, below `LMEM_SIZE` (R60). -/
def Memory.within (size : Nat) (m : Memory) : Bool := m.all (fun c => decide (c.1 < size))

/-- Every byte of [a, a + n) has been written. -/
def Memory.written (m : Memory) (a : Nat) : Nat → Bool
  | 0 => true
  | n + 1 => (Memory.lookup m a).isSome && Memory.written m (a + 1) n

/-- Write consecutive bytes from an address up. -/
def Memory.writeBytes : Memory → Nat → List Byte → Memory
  | m, _, [] => m
  | m, a, b :: bs => Memory.writeBytes (Memory.set m a b) (a + 1) bs

/-- Read one byte. A byte never written reads as the free draw number `d` (R79). -/
def readByte (m : Memory) (d a : Nat) : Byte := (Memory.lookup m a).getD (Config.freeByte d)

/-- `MemRead(a, n)`, little-endian (00_scope.md R13). Byte i, if never written, is draw number d + i. -/
def memRead (m : Memory) (d a : Nat) : Nat → Nat
  | 0 => 0
  | n + 1 => (readByte m d a).toNat + 256 * memRead m (d + 1) (a + 1) n

/-- The n bytes that `MemWrite(a, n, v)` stores, lowest address first (R13). -/
def leBytes : Nat → Nat → List Byte
  | 0, _ => []
  | n + 1, v => BitVec.ofNat 8 v :: leBytes n (v / 256)

/-- `n` free bytes, draws number d, d + 1, … (70_reset_and_hazards.md R254). -/
def freeBytes (d n : Nat) : List Byte := (List.range n).map (fun k => Config.freeByte (d + k))

/-! ### Sums, as the pseudocode writes them (00_scope.md R11) -/

/-- `sum_{k=0}^{n-1} f k`, exact. -/
def sumTo (f : Nat → Nat) : Nat → Nat
  | 0 => 0
  | n + 1 => sumTo f n + f n

/-- Bit `k` of a natural number (R12). -/
def natBit (v k : Nat) : Nat := v / 2 ^ k % 2

/-! ### Results of a completion -/

/-- `RES <- zext_32(v)` (00_scope.md R14). -/
def State.setRes (s : State) (v : Nat) : State := { s with res := BitVec.ofNat 32 v }

/-- Count the draws that a command's `n` byte reads may have taken, so that no later read uses one of them
(20_memory.md R79). -/
def State.countReads (s : State) (n : Nat) : State := { s with draws := s.draws + n }

/-- Write consecutive bytes of LMEM. -/
def State.storeBytes (s : State) (a : Nat) (bs : List Byte) : State :=
  { s with lmem := Memory.writeBytes s.lmem a bs }

/-! ### The error action and its clearing (60_exceptions.md R222, R226) -/

/-- `raise Error(code)`: ERRCODE keeps the first code since ERR was last 0, ERR becomes 1, nothing else
changes (R222). -/
def State.raiseError (s : State) (e : ErrCode) : State :=
  { s with errcode := if s.err then s.errcode else e.code, err := true }

/-- A host write of `w` to STATUS: bit 1 clears DONE, bit 2 clears ERR and ERRCODE, other bits are ignored
(10_state.md R25, 60_exceptions.md R226). -/
def State.clearStatus (s : State) (w : Word) : State :=
  { s with done := s.done && !w.getLsbD 1, err := s.err && !w.getLsbD 2,
           errcode := if w.getLsbD 2 then 0 else s.errcode }

end Sys2Proof.Machine
end

