-- ==== Sys2Proof/Machine/Operands.lean ====
section
/-! DEFINITION. What a latched command says: its modulus, dimensions and regions, the table of which command
uses what (30_encoding.md R83, R84), and the issue checks (60_exceptions.md R221). -/

namespace Sys2Proof.Machine

/-! ### The latched values (10_state.md R36, 00_scope.md R6, R7, R15) -/

/-- D = 15 + DSEL (10_state.md R26). -/
def Latched.D (L : Latched) : Nat := if L.regs.cfg.dsel then 16 else 15

/-- q = 2^D (00_scope.md R6). -/
def Latched.q (L : Latched) : Nat := 2 ^ L.D

/-- B, the value of BSEL itself (00_scope.md R7). -/
def Latched.B (L : Latched) : Nat := L.regs.cfg.bsel.toNat

/-- L.ROWS. -/
def Latched.R (L : Latched) : Nat := L.regs.rows.toNat

/-- L.COLS. -/
def Latched.C (L : Latched) : Nat := L.regs.cols.toNat

/-- L.INNER. -/
def Latched.K (L : Latched) : Nat := L.regs.inner.toNat

/-- N = L.ROWS * L.COLS (00_scope.md R15). -/
def Latched.N (L : Latched) : Nat := L.R * L.C

/-- L.SRC0 as a byte address. -/
def Latched.src0 (L : Latched) : Nat := L.regs.src0.toNat

/-- L.SRC1 as a byte address. -/
def Latched.src1 (L : Latched) : Nat := L.regs.src1.toNat

/-- L.DST as a byte address. -/
def Latched.dst (L : Latched) : Nat := L.regs.dst.toNat

/-- `red(x) = x mod q` (40_ring_element.md R100). -/
def Latched.red (L : Latched) (x : Nat) : Nat := x % L.q

/-- `red(L.OPA)`. -/
def Latched.a (L : Latched) : Nat := L.red L.regs.opa.toNat

/-- `red(L.OPB)`. -/
def Latched.b (L : Latched) : Nat := L.red L.regs.opb.toNat

/-! ### Elements in LMEM (20_memory.md R62 to R65) -/

/-- `ElemRead(a) = MemRead(a, 2) mod q` (R63). -/
def elemRead (m : Memory) (d q a : Nat) : Nat := memRead m d a 2 % q

/-- The two bytes that `ElemWrite(a, v) = MemWrite(a, 2, v mod q)` stores (R64). -/
def elemBytes (q v : Nat) : List Byte := leBytes 2 (v % q)

/-- The bytes of `n` consecutive elements f 0, f 1, …, in row-major order (R65). -/
def elemsBytes (q : Nat) (f : Nat → Nat) (n : Nat) : List Byte :=
  (List.range n).flatMap (fun k => elemBytes q (f k))

/-! ### Regions (20_memory.md R66) -/

/-- A region [base, base + len); `elem` says that it is a matrix operand, whose base must be even. -/
structure Region where
  base : Nat
  len  : Nat
  elem : Bool
  deriving DecidableEq, Repr

/-- The matrix region of `n` elements (30_encoding.md R84 "elem"). -/
def elemRegion (base n : Nat) : Region := { base := base, len := 2 * n, elem := true }

/-- The byte region of `n` bytes (R84 "bytes"). -/
def byteRegion (base n : Nat) : Region := { base := base, len := n, elem := false }

/-- The address lies in the region. -/
def Region.covers (r : Region) (a : Nat) : Bool := decide (r.base ≤ a) && decide (a < r.base + r.len)

/-- Two regions overlap (R66). -/
def Region.overlaps (r t : Region) : Bool :=
  decide (r.base < t.base + t.len) && decide (t.base < r.base + r.len)

/-- The region is inside LMEM, computed without wrap-around (R66). -/
def Region.inside (r : Region) (size : Nat) : Bool := decide (r.base + r.len ≤ size)

/-- How a destination may meet a source (R84). -/
inductive OverlapRule where
  | disjoint | exactOrDisjoint
  deriving DecidableEq, Repr

/-- The destination `d` breaks the rule against the source `r` (R84). -/
def OverlapRule.broken (o : OverlapRule) (d r : Region) : Bool :=
  match o with
  | .disjoint => d.overlaps r
  | .exactOrDisjoint => d.overlaps r && !decide (d.base = r.base)

/-! ### What each command uses (30_encoding.md R83, R84) -/

/-- The command uses B (R83). -/
def usesB : Instr → Bool
  | .eEnc | .eDec | .cEncode | .cDecode => true
  | .nop | .eRed | .eAdd | .eSub | .eNeg | .eMul | .eEq | .eCteq => false
  | .mAdd | .mSub | .mMul | .mTranspose | .mEq | .mCteq => false
  | .sSample | .sSampleMat | .cPack | .cUnpack | .cStoreLe | .cLoadLe => false

/-- The command uses PSET (R83). -/
def usesPset : Instr → Bool
  | .sSample | .sSampleMat => true
  | .nop | .eRed | .eAdd | .eSub | .eNeg | .eMul | .eEnc | .eDec | .eEq | .eCteq => false
  | .mAdd | .mSub | .mMul | .mTranspose | .mEq | .mCteq => false
  | .cEncode | .cDecode | .cPack | .cUnpack | .cStoreLe | .cLoadLe => false

/-- The command writes RES at its completion (R83, 10_state.md R32). -/
def writesRes : Instr → Bool
  | .eRed | .eAdd | .eSub | .eNeg | .eMul | .eEnc | .eDec | .eEq | .eCteq => true
  | .mEq | .mCteq | .sSample => true
  | .nop | .mAdd | .mSub | .mMul | .mTranspose | .sSampleMat => false
  | .cEncode | .cDecode | .cPack | .cUnpack | .cStoreLe | .cLoadLe => false

/-- N must be a multiple of 8 (R84, 43_codec.md R181). -/
def needsGroupsOf8 : Instr → Bool
  | .cEncode | .cDecode => true
  | .nop | .eRed | .eAdd | .eSub | .eNeg | .eMul | .eEnc | .eDec | .eEq | .eCteq => false
  | .mAdd | .mSub | .mMul | .mTranspose | .mEq | .mCteq | .sSample | .sSampleMat => false
  | .cPack | .cUnpack | .cStoreLe | .cLoadLe => false

/-- The values of the dimension registers the command uses (R84 "dims used"). -/
def Latched.dims (L : Latched) : List Nat :=
  match L.op with
  | .nop | .eRed | .eAdd | .eSub | .eNeg | .eMul | .eEnc | .eDec | .eEq | .eCteq | .sSample => []
  | .mMul => [L.R, L.C, L.K]
  | .mAdd | .mSub | .mTranspose | .mEq | .mCteq | .sSampleMat => [L.R, L.C]
  | .cEncode | .cDecode | .cPack | .cUnpack | .cStoreLe | .cLoadLe => [L.R, L.C]

/-- ceil(N*D/8), the packed size (R84, 43_codec.md R183). -/
def Latched.packedLen (L : Latched) : Nat := (L.N * L.D + 7) / 8

/-- N*B/8, the size of the encoded message (R84, 43_codec.md R181). -/
def Latched.messageLen (L : Latched) : Nat := L.N * L.B / 8

/-- The source regions (R84 "sources"). -/
def Latched.sources (L : Latched) : List Region :=
  match L.op with
  | .nop | .eRed | .eAdd | .eSub | .eNeg | .eMul | .eEnc | .eDec | .eEq | .eCteq | .sSample => []
  | .mAdd | .mSub | .mEq | .mCteq => [elemRegion L.src0 L.N, elemRegion L.src1 L.N]
  | .mMul => [elemRegion L.src0 (L.R * L.K), elemRegion L.src1 (L.K * L.C)]
  | .mTranspose | .cDecode | .cPack | .cStoreLe => [elemRegion L.src0 L.N]
  | .sSampleMat | .cLoadLe => [byteRegion L.src0 (2 * L.N)]
  | .cEncode => [byteRegion L.src0 L.messageLen]
  | .cUnpack => [byteRegion L.src0 L.packedLen]

/-- The destination region (R84 "destination"). -/
def Latched.dest (L : Latched) : Option Region :=
  match L.op with
  | .nop | .eRed | .eAdd | .eSub | .eNeg | .eMul | .eEnc | .eDec | .eEq | .eCteq | .sSample => none
  | .mEq | .mCteq => none
  | .mAdd | .mSub | .mMul | .mTranspose => some (elemRegion L.dst L.N)
  | .sSampleMat | .cEncode | .cUnpack | .cLoadLe => some (elemRegion L.dst L.N)
  | .cDecode => some (byteRegion L.dst L.messageLen)
  | .cPack => some (byteRegion L.dst L.packedLen)
  | .cStoreLe => some (byteRegion L.dst (2 * L.N))

/-- The overlap rule (R84 "alias rule"). It is read only for a command with a destination. -/
def overlapRule : Instr → OverlapRule
  | .mAdd | .mSub | .sSampleMat | .cStoreLe | .cLoadLe => .exactOrDisjoint
  | .mMul | .mTranspose | .cEncode | .cDecode | .cPack | .cUnpack => .disjoint
  | .nop | .eRed | .eAdd | .eSub | .eNeg | .eMul | .eEnc | .eDec | .eEq | .eCteq => .disjoint
  | .mEq | .mCteq | .sSample => .disjoint

/-- Every region of the command, the destination last (R84). -/
def Latched.regions (L : Latched) : List Region := L.sources ++ L.dest.toList

/-! ### The issue checks (60_exceptions.md R221) -/

/-- Check 3: a field the command uses holds a reserved value. -/
def Latched.cfgBad (L : Latched) : Bool :=
  (usesB L.op && !(L.B == 2 || L.B == 3 || L.B == 4)) || (usesPset L.op && L.regs.cfg.pset == 3)

/-- Check 4: a used dimension is 0, or N is not a multiple of 8 where it must be. -/
def Latched.dimBad (L : Latched) : Bool :=
  L.dims.any (fun n => n == 0) || (needsGroupsOf8 L.op && L.N % 8 != 0)

/-- Check 5: a matrix operand's base is odd. -/
def Latched.misaligned (L : Latched) : Bool := L.regions.any (fun r => r.elem && r.base % 2 == 1)

/-- Check 6: a region ends past LMEM_SIZE. -/
def Latched.outOfRange (L : Latched) (size : Nat) : Bool := L.regions.any (fun r => !r.inside size)

/-- Check 7: the destination breaks the command's overlap rule against a source. -/
def Latched.overlapBad (L : Latched) : Bool :=
  match L.dest with
  | none => false
  | some d => L.sources.any (fun r => (overlapRule L.op).broken d r)

/-- Checks 3 to 7 in their order; the first that fails decides the error (R221). -/
def issueCheck (size : Nat) (L : Latched) : Option ErrCode :=
  if L.cfgBad then some .badCfg
  else if L.dimBad then some .badDim
  else if L.misaligned then some .misaligned
  else if L.outOfRange size then some .outOfRange
  else if L.overlapBad then some .overlap
  else none

end Sys2Proof.Machine
end

