-- ==== Sys2Proof/Machine/Cdf.lean ====
section
/-! DEFINITION. The CDF ROM (42_error_sampler.md R160, 10_state.md R37) and the sampling function (R163). -/

namespace Sys2Proof.Machine

/-- `CHI[p]` for PSET = p (00_scope.md R8). PSET = 3 selects no table. -/
def chiOf (p : Config.Params) (sel : BitVec 2) : List Nat :=
  match sel with
  | 0#2 => p.chi640
  | 1#2 => p.chi976
  | 2#2 => p.chi1344
  | _ => []

/-- The running sums t, t + f0, t + f0 + f1, … -/
def runningSums (t : Nat) : List Nat → List Nat
  | [] => [t]
  | f :: fs => t :: runningSums (t + f) fs

/-- T(p) from CHI[p]: T[0] = CHI[0] div 2 - 1, T[z] = T[0] + the sum of CHI[1] to CHI[z] (R160). -/
def cdfOf : List Nat → List Nat
  | [] => []
  | f :: fs => runningSums (f / 2 - 1) fs

/-- The table T(p) of the ROM (10_state.md R37). -/
def cdfTable (p : Config.Params) (sel : BitVec 2) : List Nat := cdfOf (chiOf p sel)

/-- How many entries `t` exceeds: every entry is compared (R163). -/
def countBelow (t : Nat) : List Nat → Nat
  | [] => 0
  | e :: es => (if t > e then 1 else 0) + countBelow t es

/-- `sample(r, p, D)` for a 16-bit input r (R163): the magnitude from r[15:1], the sign from r[0]. -/
def sample (table : List Nat) (d r : Nat) : Nat :=
  if r % 2 = 1 then (2 ^ d - countBelow (r / 2) table) % 2 ^ d else countBelow (r / 2) table

end Sys2Proof.Machine
end

