-- ==== Sys2Proof/Machine/LifeCycle.lean ====
section
/-! DEFINITION. A command's life: issue and completion (60_exceptions.md R220 to R225), and the two resets
(70_reset_and_hazards.md R250 to R254). -/

namespace Sys2Proof.Machine

/-- The snapshot S of a command about to be issued (R221 check 2, 10_state.md R36). -/
def State.snapshot (s : State) (i : Instr) : Latched := { op := i, regs := s.regs }

/-- Issue a decoded command while BUSY = 0: checks 3 to 7 of R221, then the error action, or L <- (op, S)
and BUSY <- 1. -/
def State.issue (s : State) (i : Instr) : State :=
  match issueCheck s.params.lmemSize (s.snapshot i) with
  | some e => s.raiseError e
  | none => { s with inflight := some (s.snapshot i) }

/-- What a command means (log 2). With nothing in flight it is being issued (R221). With itself in flight it
is being completed (R224): `effect` is the completion pseudocode of its rule, applied to L. With another
command in flight it is turned away with BUSY (R221 check 1). A latched command that did not pass
the issue checks has no completion (log 3). -/
def runCommand (i : Instr) (effect : Latched → State → State) (s : State) :
    Host.Outcome State Fault Refusal :=
  match s.inflight with
  | none => .next (s.issue i)
  | some L =>
    if L.op = i then
      match issueCheck s.params.lmemSize L with
      | none => .next (effect L s).finish
      | some _ => .fault .completionUnchecked
    else .next (s.raiseError .busy)

/-- Every register at its reset value and no command in flight (10_state.md R42). -/
def State.resetRegisters (s : State) : State :=
  { s with ie := false, done := false, err := false, errcode := 0, regs := OpRegs.reset, res := 0,
           inflight := none }

/-- The destination region of the command in flight, empty if there is none (R254). -/
def State.abandonedRegion (s : State) : Region :=
  match s.inflight with
  | none => byteRegion 0 0
  | some L => L.dest.getD (byteRegion 0 0)

/-- Abandon the command in flight: each byte of its destination region takes one free draw (R254, 93 U3). DESIGN CHOICE
(log 25): of an in-place command (DST equal to a source's base, 30_encoding.md R84) R254 calls the same bytes a
destination, unspecified, and a source, unchanged. The model draws them: the destination wins. -/
def State.abandon (s : State) : State :=
  (s.storeBytes s.abandonedRegion.base (freeBytes s.draws s.abandonedRegion.len)).countReads
    s.abandonedRegion.len

/-- The soft reset (70_reset_and_hazards.md R253). -/
def State.softReset (s : State) : State := s.abandon.resetRegisters

/-- rst_n goes low (R250, R251): registers at reset, the command in flight abandoned, every LMEM byte
unspecified again, and a stalled LMEM access answered with a bus error and not performed. The draw
counter goes on, so that later draws are new ones. DESIGN CHOICE (log 24): R254 and 93 U3 say of a hardware reset too
that an abandoned command's sources (U3: every other byte) keep their values, R251, 10_state.md R42 and 93 U2 that all of
LMEM is unspecified. The model takes the latter for every byte. -/
def State.hardReset (s : State) : State :=
  { s.resetRegisters with
      lmem := [], inReset := true, stalled := none,
      resp := if s.stalled.isSome then .busError else .none }

end Sys2Proof.Machine
end

