-- ==== Sys2Proof/Machine/Ring.lean ====
section
/-! DEFINITION. The ring element commands (40_ring_element.md): operands `red(L.OPA)`, `red(L.OPB)`, result in RES. -/

namespace Sys2Proof.Machine

/-- The completion of NOP (R102): no effect. -/
def nopEffect (_L : Latched) (s : State) : State :=
  s

/-- NOP (R102): no effect. -/
def execNop (s : State) : Host.Outcome State Fault Refusal := runCommand .nop nopEffect s

/-- The completion of E_RED (R103): `RES <- red(L.OPA)`. -/
def eRedEffect (L : Latched) (s : State) : State :=
  s.setRes L.a

/-- E_RED (R103): `RES <- red(L.OPA)`. -/
def execERed (s : State) : Host.Outcome State Fault Refusal := runCommand .eRed eRedEffect s

/-- The completion of E_ADD (R104). -/
def eAddEffect (L : Latched) (s : State) : State :=
  s.setRes ((L.a + L.b) % L.q)

/-- E_ADD (R104). -/
def execEAdd (s : State) : Host.Outcome State Fault Refusal := runCommand .eAdd eAddEffect s

/-- `(q - x) mod q`, the ring negation (R105, R106). -/
def negMod (q x : Nat) : Nat := (q - x) % q

/-- The completion of E_SUB (R105): "sub (= add of negation)". -/
def eSubEffect (L : Latched) (s : State) : State :=
  s.setRes ((L.a + negMod L.q L.b) % L.q)

/-- E_SUB (R105): "sub (= add of negation)". -/
def execESub (s : State) : Host.Outcome State Fault Refusal := runCommand .eSub eSubEffect s

/-- The completion of E_NEG (R106). -/
def eNegEffect (L : Latched) (s : State) : State :=
  s.setRes (negMod L.q L.a)

/-- E_NEG (R106). -/
def execENeg (s : State) : Host.Outcome State Fault Refusal := runCommand .eNeg eNegEffect s

/-- The completion of E_MUL (R107): the product is exact, then reduced. -/
def eMulEffect (L : Latched) (s : State) : State :=
  s.setRes (L.a * L.b % L.q)

/-- E_MUL (R107): the product is exact, then reduced. -/
def execEMul (s : State) : Host.Outcome State Fault Refusal := runCommand .eMul eMulEffect s

/-- `encode<B>(k)`: k shifted left by D - B bits (R108). -/
def encodeElem (d b k : Nat) : Nat := k % 2 ^ b * 2 ^ (d - b) % 2 ^ d

/-- `decode<B>()`: round(v * 2^B / q) mod 2^B (R109; 90_conflicts.md C3 keeps the final mod). -/
def decodeElem (d b v : Nat) : Nat := (v * 2 ^ b + 2 ^ (d - 1)) / 2 ^ d % 2 ^ b

/-- The completion of E_ENC (R108): k = L.OPA mod 2^B. -/
def eEncEffect (L : Latched) (s : State) : State :=
  s.setRes (encodeElem L.D L.B L.regs.opa.toNat)

/-- E_ENC (R108): k = L.OPA mod 2^B. -/
def execEEnc (s : State) : Host.Outcome State Fault Refusal := runCommand .eEnc eEncEffect s

/-- The completion of E_DEC (R109): v = red(L.OPA). -/
def eDecEffect (L : Latched) (s : State) : State :=
  s.setRes (decodeElem L.D L.B L.a)

/-- E_DEC (R109): v = red(L.OPA). -/
def execEDec (s : State) : Host.Outcome State Fault Refusal := runCommand .eDec eDecEffect s

/-- The completion of E_EQ (R110): 1 or 0. -/
def eEqEffect (L : Latched) (s : State) : State :=
  s.setRes (if L.a = L.b then 1 else 0)

/-- E_EQ (R110): 1 or 0. -/
def execEEq (s : State) : Host.Outcome State Fault Refusal := runCommand .eEq eEqEffect s

/-- The 16-bit comparison mask (R111, 90_conflicts.md C7). -/
def eqMask (x y : Nat) : Nat := if x = y then 0xFFFF else 0x0000

/-- The completion of E_CTEQ (R111). -/
def eCteqEffect (L : Latched) (s : State) : State :=
  s.setRes (eqMask L.a L.b)

/-- E_CTEQ (R111). -/
def execECteq (s : State) : Host.Outcome State Fault Refusal := runCommand .eCteq eCteqEffect s

end Sys2Proof.Machine
end

