-- ==== Sys2Proof/Machine/Matrix.lean ====
section
/-! DEFINITION. The matrix commands (41_matrix.md). A completion reads the LMEM of issue (20_memory.md R71), so
every element of the result is computed from the state the completion starts in. Each byte read of the
pseudocode has a draw number of its own, used if the byte was never written (R79, log 5). -/

namespace Sys2Proof.Machine

/-- Write a matrix of `n` elements at L.DST, row-major and canonical (20_memory.md R64, R65), after `reads` byte reads. -/
def storeElems (L : Latched) (n reads : Nat) (f : Nat → Nat) (s : State) : State :=
  (s.storeBytes L.dst (elemsBytes L.q f n)).countReads reads

/-- Element `k` of the matrix at `base`; its two bytes are the byte reads number `pos` and `pos + 1` of
the completion (41_matrix.md R130, 00_scope.md R15 `Elem(k)`). -/
def elemOf (L : Latched) (s : State) (base k pos : Nat) : Nat :=
  elemRead s.lmem (s.draws + pos) L.q (base + 2 * k)

/-- X[i][j] + Y[i][j] of M_ADD, for element k = i*C + j (R131). -/
def mAddElem (L : Latched) (s : State) (k : Nat) : Nat :=
  (elemOf L s L.src0 k (4 * k) + elemOf L s L.src1 k (4 * k + 2)) % L.q

/-- The completion of M_ADD (R131). -/
def mAddEffect (L : Latched) (s : State) : State :=
  storeElems L L.N (4 * L.N) (mAddElem L s) s

/-- M_ADD (R131). -/
def execMAdd (s : State) : Host.Outcome State Fault Refusal := runCommand .mAdd mAddEffect s

/-- X[i][j] - Y[i][j] of M_SUB, as add of negation (R132). -/
def mSubElem (L : Latched) (s : State) (k : Nat) : Nat :=
  (elemOf L s L.src0 k (4 * k) + negMod L.q (elemOf L s L.src1 k (4 * k + 2))) % L.q

/-- The completion of M_SUB (R132). -/
def mSubEffect (L : Latched) (s : State) : State :=
  storeElems L L.N (4 * L.N) (mSubElem L s) s

/-- M_SUB (R132). -/
def execMSub (s : State) : Host.Outcome State Fault Refusal := runCommand .mSub mSubEffect s

/-- The exact sum over k of X[i][k] * Y[k][j], reduced, for element n = i*C + j of M_MUL, where X has K columns
and Y has C (R133, R134). -/
def mMulElem (L : Latched) (s : State) (n : Nat) : Nat :=
  sumTo (fun k =>
    elemOf L s L.src0 (n / L.C * L.K + k) (4 * (n * L.K + k)) *
      elemOf L s L.src1 (k * L.C + n % L.C) (4 * (n * L.K + k) + 2)) L.K % L.q

/-- The completion of M_MUL (R134). -/
def mMulEffect (L : Latched) (s : State) : State :=
  storeElems L L.N (4 * (L.N * L.K)) (mMulElem L s) s

/-- M_MUL (R134). -/
def execMMul (s : State) : Host.Outcome State Fault Refusal := runCommand .mMul mMulEffect s

/-- Element n = j*R + i of M_TRANSPOSE's result, which has C rows of R columns: X[i][j] (R135). -/
def mTransposeElem (L : Latched) (s : State) (n : Nat) : Nat :=
  elemOf L s L.src0 (n % L.R * L.C + n / L.R) (2 * n)

/-- The completion of M_TRANSPOSE (R135). -/
def mTransposeEffect (L : Latched) (s : State) : State :=
  storeElems L L.N (2 * L.N) (mTransposeElem L s) s

/-- M_TRANSPOSE (R135). -/
def execMTranspose (s : State) : Host.Outcome State Fault Refusal := runCommand .mTranspose mTransposeEffect s

/-- Every element of the first `n` is equal in X and Y (R136). -/
def allEqual (L : Latched) (s : State) : Nat → Bool
  | 0 => true
  | n + 1 => allEqual L s n && decide (elemOf L s L.src0 n (4 * n) = elemOf L s L.src1 n (4 * n + 2))

/-- The completion of M_EQ (R136). -/
def mEqEffect (L : Latched) (s : State) : State :=
  (s.setRes (if allEqual L s L.N then 1 else 0)).countReads (4 * L.N)

/-- M_EQ (R136). -/
def execMEq (s : State) : Host.Outcome State Fault Refusal := runCommand .mEq mEqEffect s

/-- The AND of the element masks of the first `n` elements, from 0xFFFF (R137). -/
def maskAll (L : Latched) (s : State) : Nat → Nat
  | 0 => 0xFFFF
  | n + 1 => maskAll L s n &&& eqMask (elemOf L s L.src0 n (4 * n)) (elemOf L s L.src1 n (4 * n + 2))

/-- The completion of M_CTEQ (R137). -/
def mCteqEffect (L : Latched) (s : State) : State :=
  (s.setRes (maskAll L s L.N)).countReads (4 * L.N)

/-- M_CTEQ (R137). -/
def execMCteq (s : State) : Host.Outcome State Fault Refusal := runCommand .mCteq mCteqEffect s

end Sys2Proof.Machine
end

