-- ==== Sys2Proof/Machine/Sampler.lean ====
section
/-! DEFINITION. The error sampler commands (42_error_sampler.md). -/

namespace Sys2Proof.Machine

/-- The completion of S_SAMPLE (R164): r = L.OPA[15:0], the upper half is ignored. -/
def sSampleEffect (L : Latched) (s : State) : State :=
  s.setRes (sample (cdfTable s.params L.regs.cfg.pset) L.D (L.regs.opa.toNat % 2 ^ 16))

/-- S_SAMPLE (R164): r = L.OPA[15:0], the upper half is ignored. -/
def execSSample (s : State) : Host.Outcome State Fault Refusal := runCommand .sSample sSampleEffect s

/-- The sample of entry k of the random bytes: a 16-bit little-endian entry, not reduced first (R165). -/
def sampleEntry (L : Latched) (s : State) (k : Nat) : Nat :=
  sample (cdfTable s.params L.regs.cfg.pset) L.D (memRead s.lmem (s.draws + 2 * k) (L.src0 + 2 * k) 2)

/-- The completion of S_SAMPLE_MAT (R165). -/
def sSampleMatEffect (L : Latched) (s : State) : State :=
  storeElems L L.N (2 * L.N) (sampleEntry L s) s

/-- S_SAMPLE_MAT (R165). -/
def execSSampleMat (s : State) : Host.Outcome State Fault Refusal := runCommand .sSampleMat sSampleMatEffect s

end Sys2Proof.Machine
end

