-- ==== Sys2Proof/Machine/Codec.lean ====
section
/-! DEFINITION. The codec commands (43_codec.md). Each source byte or element is read once; its draw number is
its place in the source (log 5). -/

namespace Sys2Proof.Machine

/-- Byte `j` of the byte region at L.SRC0. -/
def srcByte (L : Latched) (s : State) (j : Nat) : Nat :=
  (readByte s.lmem (s.draws + j) (L.src0 + j)).toNat

/-- Element `k` of the matrix at L.SRC0. -/
def srcElem (L : Latched) (s : State) (k : Nat) : Nat := elemOf L s L.src0 k (2 * k)

/-- Write `n` bytes f 0, f 1, … at L.DST, after `reads` byte reads. -/
def storeByteRun (L : Latched) (n reads : Nat) (f : Nat → Nat) (s : State) : State :=
  (s.storeBytes L.dst ((List.range n).map (fun j => BitVec.ofNat 8 (f j)))).countReads reads

/-! ### Message encoding, least significant bit first (R180) -/

/-- Stream bit p is bit p mod 8 of byte p div 8 (R180). -/
def messageBit (L : Latched) (s : State) (p : Nat) : Nat := natBit (srcByte L s (p / 8)) (p % 8)

/-- kval(k): stream bit k*B is its least significant bit (R180). -/
def messageValue (L : Latched) (s : State) (k : Nat) : Nat :=
  sumTo (fun l => messageBit L s (k * L.B + l) * 2 ^ l) L.B

/-- The completion of C_ENCODE (R181). -/
def cEncodeEffect (L : Latched) (s : State) : State :=
  storeElems L L.N L.messageLen (fun k => messageValue L s k * 2 ^ (L.D - L.B)) s

/-- C_ENCODE (R181). -/
def execCEncode (s : State) : Host.Outcome State Fault Refusal := runCommand .cEncode cEncodeEffect s

/-- bitout(k*B + l) = bit l of the decoded value of element k (R182). -/
def decodedBit (L : Latched) (s : State) (p : Nat) : Nat :=
  natBit (decodeElem L.D L.B (srcElem L s (p / L.B))) (p % L.B)

/-- Output byte j of C_DECODE (R182). -/
def decodedByte (L : Latched) (s : State) (j : Nat) : Nat :=
  sumTo (fun t => decodedBit L s (8 * j + t) * 2 ^ t) 8

/-- The completion of C_DECODE (R182). -/
def cDecodeEffect (L : Latched) (s : State) : State :=
  storeByteRun L L.messageLen (2 * L.N) (decodedByte L s) s

/-- C_DECODE (R182). -/
def execCDecode (s : State) : Host.Outcome State Fault Refusal := runCommand .cDecode cDecodeEffect s

/-! ### Packing, most significant bit first (R183) -/

/-- sbit(p): bit D - 1 - p mod D of element p div D, and 0 past the last element (R183). -/
def packedBit (L : Latched) (s : State) (p : Nat) : Nat :=
  if p < L.N * L.D then natBit (srcElem L s (p / L.D)) (L.D - 1 - p % L.D) else 0

/-- Packed byte j (R183). -/
def packedByte (L : Latched) (s : State) (j : Nat) : Nat :=
  sumTo (fun t => packedBit L s (8 * j + t) * 2 ^ (7 - t)) 8

/-- The completion of C_PACK (R184). -/
def cPackEffect (L : Latched) (s : State) : State :=
  storeByteRun L L.packedLen (2 * L.N) (packedByte L s) s

/-- C_PACK (R184). -/
def execCPack (s : State) : Host.Outcome State Fault Refusal := runCommand .cPack cPackEffect s

/-- ubit(p): bit 7 - p mod 8 of byte p div 8 (R185). -/
def unpackBit (L : Latched) (s : State) (p : Nat) : Nat := natBit (srcByte L s (p / 8)) (7 - p % 8)

/-- Element k of C_UNPACK's result (R185). -/
def unpackElem (L : Latched) (s : State) (k : Nat) : Nat :=
  sumTo (fun l => unpackBit L s (k * L.D + l) * 2 ^ (L.D - 1 - l)) L.D

/-- The completion of C_UNPACK (R185). -/
def cUnpackEffect (L : Latched) (s : State) : State :=
  storeElems L L.N L.packedLen (unpackElem L s) s

/-- C_UNPACK (R185). -/
def execCUnpack (s : State) : Host.Outcome State Fault Refusal := runCommand .cUnpack cUnpackEffect s

/-! ### Raw little-endian form (R188) -/

/-- The completion of C_STORE_LE (R189): `MemWrite(L.DST + 2*k, 2, ElemRead(L.SRC0 + 2*k))`. -/
def cStoreLeEffect (L : Latched) (s : State) : State :=
  (s.storeBytes L.dst ((List.range L.N).flatMap (fun k => leBytes 2 (srcElem L s k)))).countReads (2 * L.N)

/-- C_STORE_LE (R189): `MemWrite(L.DST + 2*k, 2, ElemRead(L.SRC0 + 2*k))`. -/
def execCStoreLe (s : State) : Host.Outcome State Fault Refusal := runCommand .cStoreLe cStoreLeEffect s

/-- The completion of C_LOAD_LE (R190): `ElemWrite(L.DST + 2*k, MemRead(L.SRC0 + 2*k, 2) mod q)`. -/
def cLoadLeEffect (L : Latched) (s : State) : State :=
  storeElems L L.N (2 * L.N) (fun k => memRead s.lmem (s.draws + 2 * k) (L.src0 + 2 * k) 2 % L.q) s

/-- C_LOAD_LE (R190): `ElemWrite(L.DST + 2*k, MemRead(L.SRC0 + 2*k, 2) mod q)`. -/
def execCLoadLe (s : State) : Host.Outcome State Fault Refusal := runCommand .cLoadLe cLoadLeEffect s

end Sys2Proof.Machine
end

