-- ==== Sys2Proof/Machine/Dispatch.lean ====
section
/-! DEFINITION. Which meaning each command has. -/

namespace Sys2Proof.Machine

def exec (i : Instr) (s : State) : Host.Outcome State Fault Refusal :=
  match i with
  | .nop => Sys2Proof.Machine.execNop s
  | .eRed => Sys2Proof.Machine.execERed s
  | .eAdd => Sys2Proof.Machine.execEAdd s
  | .eSub => Sys2Proof.Machine.execESub s
  | .eNeg => Sys2Proof.Machine.execENeg s
  | .eMul => Sys2Proof.Machine.execEMul s
  | .eEnc => Sys2Proof.Machine.execEEnc s
  | .eDec => Sys2Proof.Machine.execEDec s
  | .eEq => Sys2Proof.Machine.execEEq s
  | .eCteq => Sys2Proof.Machine.execECteq s
  | .mAdd => Sys2Proof.Machine.execMAdd s
  | .mSub => Sys2Proof.Machine.execMSub s
  | .mMul => Sys2Proof.Machine.execMMul s
  | .mTranspose => Sys2Proof.Machine.execMTranspose s
  | .mEq => Sys2Proof.Machine.execMEq s
  | .mCteq => Sys2Proof.Machine.execMCteq s
  | .sSample => Sys2Proof.Machine.execSSample s
  | .sSampleMat => Sys2Proof.Machine.execSSampleMat s
  | .cEncode => Sys2Proof.Machine.execCEncode s
  | .cDecode => Sys2Proof.Machine.execCDecode s
  | .cPack => Sys2Proof.Machine.execCPack s
  | .cUnpack => Sys2Proof.Machine.execCUnpack s
  | .cStoreLe => Sys2Proof.Machine.execCStoreLe s
  | .cLoadLe => Sys2Proof.Machine.execCLoadLe s

end Sys2Proof.Machine
end

