-- ==== Sys2Proof/Machine/Registers.lean ====
section
/-! DEFINITION. The register map (10_state.md R22 to R34): what each offset is, what a read returns, and what a
write does, except the write of CMD, which issues a command (HostPort.lean). -/

namespace Sys2Proof.Machine

/-- The register at a 4-aligned offset below 0x1000; `none` is a reserved offset (R22). -/
def regAt (offset : Nat) : Option Reg :=
  match offset with
  | 0x000 => some .id
  | 0x004 => some .ctrl
  | 0x008 => some .status
  | 0x00C => some .cfg
  | 0x010 => some .cmd
  | 0x014 => some .src0
  | 0x018 => some .src1
  | 0x01C => some .dst
  | 0x020 => some .rows
  | 0x024 => some .cols
  | 0x028 => some .inner
  | 0x02C => some .opa
  | 0x030 => some .opb
  | 0x034 => some .res
  | 0x038 => some .lmemSize
  | 0x03C => some .cdfLen
  | n => if 0x040 ≤ n ∧ n ≤ 0x07C then some (.cdfT ((n - 0x040) / 4)) else none

/-- The ID constant (00_scope.md R2, 10_state.md R23). -/
def idValue : Word := 0x464B0001

/-- CFG as read: DSEL bit 0, BSEL bits 6:4, PSET bits 9:8, the other bits 0 (R26). -/
def Cfg.toWord (c : Cfg) : Word :=
  (0 : BitVec 22) ++ c.pset ++ (0 : BitVec 1) ++ c.bsel ++ (0 : BitVec 3) ++ BitVec.ofBool c.dsel

/-- What a write of CFG stores: any value of DSEL, BSEL and PSET, legal or not (R26). -/
def Cfg.ofWord (w : Word) : Cfg :=
  { dsel := w.getLsbD 0, bsel := w.extractLsb' 4 3, pset := w.extractLsb' 8 2 }

/-- CTRL as read: IE bit 0; SRST and the rest read 0 (R24). -/
def State.ctrlWord (s : State) : Word := (0 : BitVec 31) ++ BitVec.ofBool s.ie

/-- The table of the current, unlatched CFG.PSET (R34); empty for PSET = 3, whose readback is 0. -/
def State.liveTable (s : State) : List Nat := cdfTable s.params s.regs.cfg.pset

/-- What a register reads (R22 to R34). -/
def readReg (s : State) : Reg → Word
  | .id => idValue
  | .ctrl => s.ctrlWord
  | .status => s.statusWord
  | .cfg => s.regs.cfg.toWord
  | .cmd => 0
  | .src0 => s.regs.src0
  | .src1 => s.regs.src1
  | .dst => s.regs.dst
  | .rows => s.regs.rows.setWidth 32
  | .cols => s.regs.cols.setWidth 32
  | .inner => s.regs.inner.setWidth 32
  | .opa => s.regs.opa
  | .opb => s.regs.opb
  | .res => s.res
  | .lmemSize => BitVec.ofNat 32 s.params.lmemSize
  | .cdfLen => BitVec.ofNat 32 s.liveTable.length
  | .cdfT z => BitVec.ofNat 32 (s.liveTable.getD z 0)

/-- What an offset of the register block reads; reserved offsets read 0 (R22, R29). -/
def readOffset (s : State) (offset : Nat) : Word :=
  match regAt offset with
  | some r => readReg s r
  | none => 0

/-- A host write of CTRL: bit 1 performs the soft reset, whatever bit 0 is; otherwise only IE changes (R24). -/
def writeCtrl (s : State) (w : Word) : State :=
  if w.getLsbD 1 then s.softReset else { s with ie := w.getLsbD 0 }

/-- A host write of a register other than CMD (R22 to R34). Writes of read-only registers are ignored (R29). -/
def writeReg (s : State) (r : Reg) (w : Word) : State :=
  match r with
  | .ctrl => writeCtrl s w
  | .status => s.clearStatus w
  | .cfg => { s with regs := { s.regs with cfg := Cfg.ofWord w } }
  | .src0 => { s with regs := { s.regs with src0 := w } }
  | .src1 => { s with regs := { s.regs with src1 := w } }
  | .dst => { s with regs := { s.regs with dst := w } }
  | .rows => { s with regs := { s.regs with rows := w.setWidth 16 } }
  | .cols => { s with regs := { s.regs with cols := w.setWidth 16 } }
  | .inner => { s with regs := { s.regs with inner := w.setWidth 16 } }
  | .opa => { s with regs := { s.regs with opa := w } }
  | .opb => { s with regs := { s.regs with opb := w } }
  | .id | .cmd | .res | .lmemSize | .cdfLen | .cdfT _ => s

end Sys2Proof.Machine
end

