-- ==== Sys2Proof/Machine/HostPort.lean ====
section
/-! DEFINITION. The host port and the agents' steps: register and LMEM accesses (20_memory.md R67 to R70), the
CMD write that issues a command (10_state.md R27), the engine's turn (60_exceptions.md R224) and the reset
pin (70_reset_and_hazards.md R250). -/

namespace Sys2Proof.Machine

/-- A host write of `w` to CMD: check 1 (BUSY), check 2 (ILLEGAL_CMD), then the command's issue (60_exceptions.md R221). -/
def commandWrite (w : Word) (s : State) : Host.Outcome State Fault Refusal :=
  if s.busy then .next (s.raiseError .busy)
  else match decode w with
    | .error _ => .next (s.raiseError .illegalCmd)
    | .ok i => exec i s

/-- The host port answers (20_memory.md R67, R68). -/
def State.answer (s : State) (r : Response) : State := { s with resp := r }

/-- A register access is 32 bits wide at a multiple of 4 below 0x1000 (10_state.md R29). -/
def csrAdmitted (width offset : Nat) : Bool :=
  width == 4 && offset % 4 == 0 && decide (offset < 0x1000)

/-- A host register access; it is never stalled (R67). One the block does not admit gets a bus error and changes
nothing else (60_exceptions.md R236). -/
def csrAccess (a : CsrAccess) (s : State) : Host.Outcome State Fault Refusal :=
  match a with
  | .read width offset =>
    if csrAdmitted width offset then .next (s.answer (.data (readOffset s offset)))
    else .next (s.answer .busError)
  | .write width offset w =>
    if csrAdmitted width offset then
      match regAt offset with
      | some .cmd => commandWrite w (s.answer .written)
      | some r => .next (writeReg (s.answer .written) r w)
      | none => .next (s.answer .written)
    else .next (s.answer .busError)

/-- An LMEM access is 1, 2 or 4 bytes, aligned to its width and inside LMEM (20_memory.md R68). -/
def lmemAdmitted (size n a : Nat) : Bool :=
  (n == 1 || n == 2 || n == 4) && a % n == 0 && decide (a + n ≤ size)

/-- Perform a host LMEM access while BUSY = 0 (R68). -/
def lmemAccess (a : LmemAccess) (s : State) : State :=
  match a with
  | .read n addr =>
    if lmemAdmitted s.params.lmemSize n addr then
      (s.answer (.data (BitVec.ofNat 32 (memRead s.lmem s.draws addr n)))).countReads n
    else s.answer .busError
  | .write n addr w =>
    if lmemAdmitted s.params.lmemSize n addr then
      (s.answer .written).storeBytes addr (leBytes n w.toNat)
    else s.answer .busError

/-- The engine's turn: the completion of the command in flight, or nothing (60_exceptions.md R224). -/
def engineTurn (s : State) : Host.Outcome State Fault Refusal :=
  match s.inflight with
  | some L => exec L.op s
  | none => .next s

/-- An input that arrives while rst_n is high and no access is stalled. An LMEM access while BUSY = 1 is held by
the bus (20_memory.md R69). A STATUS write in the cycle of the completion comes first, so that the completion's
set of DONE wins (60_exceptions.md R226). -/
def takeInput (i : Input) (s : State) : Host.Outcome State Fault Refusal :=
  match i with
  | .csr a => csrAccess a s
  | .lmem a =>
    if s.busy then .next { s with stalled := some a, resp := .none }
    else .next (lmemAccess a s)
  | .engine => engineTurn s
  | .statusWriteAtCompletion w => engineTurn ((s.answer .written).clearStatus w)
  | .resetAssert => .next s.hardReset
  | .resetRelease => .next s

/-- A step while the bus holds the LMEM access `a`. The host can start nothing else (20_memory.md R70), so only the
completion or a hardware reset comes next (R69); once BUSY = 0 the access is performed. -/
def stepStalled (a : LmemAccess) (s : State) : Host.Outcome State Fault Refusal :=
  match s.inputs with
  | .resetAssert :: rest => .next { s with inputs := rest }.hardReset
  | .engine :: rest =>
    if s.busy then engineTurn { s with inputs := rest }
    else .next (lmemAccess a { s with stalled := none })
  | _ =>
    if s.busy then engineTurn s
    else .next (lmemAccess a { s with stalled := none })

/-- A step while rst_n is low: only the pin can move, and the host has no step (70_reset_and_hazards.md R250). -/
def stepInReset (s : State) : Host.Outcome State Fault Refusal :=
  match s.inputs with
  | [] => .next s
  | .resetRelease :: rest => .next { s with inReset := false, inputs := rest }
  | .resetAssert :: rest => .next { s with inputs := rest }
  | .engine :: rest => .next { s with inputs := rest }
  | .csr _ :: _ => .fault .hostAccessInReset
  | .lmem _ :: _ => .fault .hostAccessInReset
  | .statusWriteAtCompletion _ :: _ => .fault .hostAccessInReset

/-- A step with rst_n high and no stalled access: the next input, and where there is none, the engine's turn
(the model's form of weak fairness, log 1; 70_reset_and_hazards.md R264); with nothing in flight either, the run has
ended (R265). -/
def stepRunning (s : State) : Host.Outcome State Fault Refusal :=
  match s.inputs with
  | [] => engineTurn s
  | i :: rest => takeInput i { s with inputs := rest }

/-- `s` with the CMD write of `w` as the very next input, and nothing that could come before it or turn it
away: rst_n high, no stalled access, no command in flight. -/
def State.offerCommand (s : State) (w : Word) : State :=
  { s with inflight := none, inReset := false, stalled := none,
           inputs := .csr (.write 4 0x010 w) :: s.inputs }

end Sys2Proof.Machine
end

