-- ==== Sys2Proof/Machine/Step.lean ====
section
/-! DEFINITION. One step of the block, and the placing of an opcode-table word as its next command. -/

namespace Sys2Proof.Machine

/-- One step of the interleaving of host, engine and reset pin (00_scope.md R19, 20_memory.md R72). -/
def step (s : State) : Host.Outcome State Fault Refusal :=
  if s.inReset then stepInReset s
  else match s.stalled with
    | some a => stepStalled a s
    | none => stepRunning s

/-- `s` with the command word of an opcode-table row written to CMD as the next input (log 11). A number that
is no 32-bit word leaves `s` as it is. -/
def State.withFetchWord (s : State) (nbits w : Nat) : State :=
  match tableWord nbits w with
  | some v => s.offerCommand v
  | none => s

end Sys2Proof.Machine
end

