-- ==== Sys2Proof/WellFormed.lean ====
section
/-! DEFINITION. Well-formedness: of a command (nothing to check, R81) and of the block's parameters (R9).
The checks on a command's latched operands are the issue checks of 60_exceptions.md R221, in
Sys2Proof/Machine/Operands.lean. -/

namespace Sys2Proof

/-- Every command is well formed: it carries no operand that could be out of range (30_encoding.md R81). -/
def Instr.wellFormed : Instr → Bool
  | .nop | .eRed | .eAdd | .eSub | .eNeg | .eMul | .eEnc | .eDec | .eEq | .eCteq => true
  | .mAdd | .mSub | .mMul | .mTranspose | .mEq | .mCteq => true
  | .sSample | .sSampleMat => true
  | .cEncode | .cDecode | .cPack | .cUnpack | .cStoreLe | .cLoadLe => true

namespace Config

/-- `LMEM_SIZE` is "a multiple of 4, 4 ≤ LMEM_SIZE ≤ 2^31" (R9). -/
def lmemSizeLegal (n : Nat) : Bool := n % 4 == 0 && decide (4 ≤ n) && decide (n ≤ 2 ^ 31)

/-- "a list of 1 to 16 naturals" (R9). -/
def chiLengthLegal (chi : List Nat) : Bool := decide (1 ≤ chi.length) && decide (chi.length ≤ 16)

/-- "each < 2^16" (R9). -/
def chiEntriesLegal (chi : List Nat) : Bool := chi.all (fun f => decide (f < 2 ^ 16))

/-- "with CHI[p][0] even and ≥ 2" (R9). -/
def chiHeadLegal : List Nat → Bool
  | [] => false
  | f :: _ => f % 2 == 0 && decide (2 ≤ f)

/-- "the resulting T entries < 2^16" (R9): the largest entry of T is the last one, since T never
decreases (42_error_sampler.md R160). -/
def cdfFits : List Nat → Bool
  | [] => true
  | f :: fs => decide (f / 2 - 1 + fs.sum < 2 ^ 16)

/-- A legal frequency table (R9). -/
def chiLegal (chi : List Nat) : Bool :=
  chiLengthLegal chi && chiEntriesLegal chi && chiHeadLegal chi && cdfFits chi

/-- Legal parameters (R9). `CSR_BASE` and `LMEM_BASE` are the platform's choice, so every value of them is legal. -/
def Params.wellFormed (p : Params) : Bool :=
  lmemSizeLegal p.lmemSize && chiLegal p.chi640 && chiLegal p.chi976 && chiLegal p.chi1344

end Config

end Sys2Proof
end

