-- ==== Sys2Proof/Safety.lean ====
section
/-! DEFINITION. The terms that claims are stated in: a command ready to complete, what a completion leaves
unchanged, the stored value of an element, and the invariant of the block. -/

namespace Sys2Proof.Machine

/-- Command `i` is in flight with latched copy `L`, and `L` passed the issue checks (60_exceptions.md R221). -/
def State.ready (s : State) (i : Instr) (L : Latched) : Prop :=
  s.inflight = some L ∧ L.op = i ∧ issueCheck s.params.lmemSize L = none

/-- The block can take its next input: rst_n is high and no LMEM access is stalled. -/
def State.running (s : State) : Prop := s.inReset = false ∧ s.stalled = none

/-- The value of the 16-bit word at `a`, if both its bytes have been written. -/
def storedWord (m : Memory) (a : Nat) : Option Nat :=
  match Memory.lookup m a, Memory.lookup m (a + 1) with
  | some b0, some b1 => some (b0.toNat + 256 * b1.toNat)
  | _, _ => none

/-- The element at `a` of a matrix over Z_q, if its word has been written (20_memory.md R63). -/
def storedElem (m : Memory) (q a : Nat) : Option Nat := (storedWord m a).map (· % q)

/-- `t` is `s` after a completion that writes RES with `v` and no LMEM byte: DONE is 1, nothing is in
flight, RES is `v`, and nothing else changed but the count of draws. -/
def wroteRes (s t : State) (v : Nat) : Prop :=
  t = { s with done := true, inflight := none, res := BitVec.ofNat 32 v, draws := t.draws }

/-- `t` is `s` after a completion that writes the LMEM region `r` and no register: DONE is 1, nothing is in
flight, every byte of `r` has been written, every other byte is as it was, and nothing else changed but
the count of draws. -/
def wroteRegion (s t : State) (r : Region) : Prop :=
  t = { s with done := true, inflight := none, lmem := t.lmem, draws := t.draws } ∧
  (∀ a, r.covers a = true → (Memory.lookup t.lmem a).isSome = true) ∧
  (∀ a, r.covers a = false → Memory.lookup t.lmem a = Memory.lookup s.lmem a)

/-- `t` is `s` after a completion that writes `n` elements at L.DST and no register: as `wroteRegion`, and every element
is canonical, below q, whatever the sources hold (20_memory.md R64). -/
def wroteElems (s t : State) (L : Latched) (n : Nat) : Prop :=
  wroteRegion s t (elemRegion L.dst n) ∧ ∀ k < n, ∃ v < L.q, storedWord t.lmem (L.dst + 2 * k) = some v

/-- Every register, flag and byte of LMEM is as after a hardware reset (10_state.md R42, 70_reset_and_hazards.md
R250, R251). -/
def State.atReset (s : State) : Prop :=
  s.ie = false ∧ s.done = false ∧ s.err = false ∧ s.errcode = 0 ∧ s.regs = OpRegs.reset ∧ s.res = 0 ∧
  s.inflight = none ∧ s.stalled = none ∧ s.lmem = []

/-- The invariant of the block. -/
structure State.Inv (s : State) : Prop where
  /-- The parameters are legal (00_scope.md R9). -/
  params   : s.params.wellFormed = true
  /-- LMEM is in its canonical form. -/
  memory   : Memory.wf s.lmem = true
  /-- Every byte of LMEM lies below LMEM_SIZE (20_memory.md R60). -/
  within   : Memory.within s.params.lmemSize s.lmem = true
  /-- The command in flight passed the issue checks (60_exceptions.md R221, R224). -/
  checked  : ∀ L, s.inflight = some L → issueCheck s.params.lmemSize L = none
  /-- ERRCODE is NONE exactly while ERR = 0 (10_state.md R25, 60_exceptions.md R222). -/
  errNone  : s.err = false ↔ s.errcode = 0
  /-- ERRCODE values 8 to 15 are never produced (R223). -/
  errLegal : s.errcode.toNat ≤ 7
  /-- RES holds an element, a mask, a decoded value or a truth value: its upper half is 0. -/
  resHalf  : s.res.toNat < 2 ^ 16
  /-- While rst_n is low everything is at reset (70_reset_and_hazards.md R250). -/
  held     : s.inReset = true → s.atReset

end Sys2Proof.Machine
end

