-- ==== Sys2Proof/Certificates/Slice0/Obligations.lean ====
section
/-! DEFINITION. The statements about the block. Each docstring names the rule of spec/ it formalises. -/

open Sys2Proof Sys2Proof.Machine

/-! ### Encoding -/

/-- 30_encoding.md R82: the word of every row of the opcode map, written bit by bit, decodes to its command; a reserved
opcode and a reserved bit are illegal (R85). -/
def Obligations.TableWordsDecode : Prop :=
  decode 0b00000000000000000000000000000000#32 = .ok .nop ∧
  decode 0b00000000000000000000000000000001#32 = .ok .eRed ∧
  decode 0b00000000000000000000000000000010#32 = .ok .eAdd ∧
  decode 0b00000000000000000000000000000011#32 = .ok .eSub ∧
  decode 0b00000000000000000000000000000100#32 = .ok .eNeg ∧
  decode 0b00000000000000000000000000000101#32 = .ok .eMul ∧
  decode 0b00000000000000000000000000000110#32 = .ok .eEnc ∧
  decode 0b00000000000000000000000000000111#32 = .ok .eDec ∧
  decode 0b00000000000000000000000000001000#32 = .ok .eEq ∧
  decode 0b00000000000000000000000000001001#32 = .ok .eCteq ∧
  decode 0b00000000000000000000000000010000#32 = .ok .mAdd ∧
  decode 0b00000000000000000000000000010001#32 = .ok .mSub ∧
  decode 0b00000000000000000000000000010010#32 = .ok .mMul ∧
  decode 0b00000000000000000000000000010011#32 = .ok .mTranspose ∧
  decode 0b00000000000000000000000000010100#32 = .ok .mEq ∧
  decode 0b00000000000000000000000000010101#32 = .ok .mCteq ∧
  decode 0b00000000000000000000000000100000#32 = .ok .sSample ∧
  decode 0b00000000000000000000000000100001#32 = .ok .sSampleMat ∧
  decode 0b00000000000000000000000000110000#32 = .ok .cEncode ∧
  decode 0b00000000000000000000000000110001#32 = .ok .cDecode ∧
  decode 0b00000000000000000000000000110010#32 = .ok .cPack ∧
  decode 0b00000000000000000000000000110011#32 = .ok .cUnpack ∧
  decode 0b00000000000000000000000000110100#32 = .ok .cStoreLe ∧
  decode 0b00000000000000000000000000110101#32 = .ok .cLoadLe ∧
  decode 0b00000000000000000000000000001010#32 = .error .reservedOpcode ∧
  decode 0b00000000000000000000000100000000#32 = .error .reservedBits

/-- 30_encoding.md R86: every 32-bit word is either exactly one command or illegal. A word decodes to a
command exactly when it is that command's encoding. -/
def Obligations.EveryWordIsOneCommandOrIllegal : Prop :=
  ∀ (w : Word) (i : Instr), decode w = .ok i ↔ w = encode i

/-- 30_encoding.md R85: which words are illegal, by number. -/
def Obligations.IllegalWordsByNumber : Prop :=
  ∀ w : Word, (∃ e, decode w = .error e) ↔
    w.toNat / 256 ≠ 0 ∨
      (let op := w.toNat % 256
       (0x0A ≤ op ∧ op ≤ 0x0F) ∨ (0x16 ≤ op ∧ op ≤ 0x1F) ∨ (0x22 ≤ op ∧ op ≤ 0x2F) ∨ (0x36 ≤ op ∧ op ≤ 0xFF))

/-! ### A step runs the decoded command -/

/-- 60_exceptions.md R220, R221: a host write to CMD of a word that decodes to a command, while BUSY = 0, is the
command's `exec` after the host port has taken the write. -/
def Obligations.CmdWriteRunsDecodedCommand : Prop :=
  ∀ (s : State) (w : Word) (i : Instr) (rest : List Input),
    s.running → s.busy = false → s.inputs = .csr (.write 4 0x010 w) :: rest → decode w = .ok i →
    step s = exec i { s with inputs := rest, resp := .written }

/-- 60_exceptions.md R224: while BUSY = 1 the engine's turn is the `exec` of the command in flight. That the turn comes
when no input is left is the model's choice (log 1): 70_reset_and_hazards.md R264 only says that the completion stays
enabled and that weak fairness is assumed. With no command in flight the engine has no step (R224): its turn changes
nothing. -/
def Obligations.EngineTurnRunsCommandInFlight : Prop :=
  ∀ s : State, s.running →
    (∀ L, s.inflight = some L →
      (s.inputs = [] → step s = exec L.op s) ∧
      (∀ rest, s.inputs = .engine :: rest → step s = exec L.op { s with inputs := rest })) ∧
    (s.inflight = none →
      (s.inputs = [] → step s = .next s) ∧
      (∀ rest, s.inputs = .engine :: rest → step s = .next { s with inputs := rest }))

/-- 30_encoding.md R85, 70_reset_and_hazards.md R256, 60_exceptions.md R221 checks 1 and 2: a CMD write while BUSY = 1,
of any word, is refused with BUSY (code 7) and leaves the command in flight as it is; an illegal word written while
BUSY = 0 raises ILLEGAL_CMD (code 1). Neither has another effect. -/
def Obligations.RefusedCmdWriteOnlyRecordsError : Prop :=
  ∀ (s : State) (w : Word) (rest : List Input), s.running → s.inputs = .csr (.write 4 0x010 w) :: rest →
    let recorded := fun code : BitVec 4 =>
      step s = .next { s with inputs := rest, resp := .written, err := true,
                              errcode := if s.err then s.errcode else code }
    (s.busy = true → recorded 7) ∧ (s.busy = false → (∃ e, decode w = .error e) → recorded 1)

/-! ### Issue -/

/-- 10_state.md R36: a successful issue copies the opcode and CFG, SRC0, SRC1, DST, ROWS, COLS, INNER, OPA, OPB
into L and sets BUSY, and does nothing else. -/
def Obligations.IssueLatchesOperands : Prop :=
  ∀ (s : State) (i : Instr), s.inflight = none →
    issueCheck s.params.lmemSize { op := i, regs := s.regs } = none →
    exec i s = .next { s with inflight := some { op := i, regs := s.regs } }

/-- 60_exceptions.md R222, R223: a refused issue sets ERR, records its code if ERR was 0, and changes nothing
else. -/
def Obligations.RefusedIssueOnlyRecordsError : Prop :=
  ∀ (s : State) (i : Instr) (e : ErrCode), s.inflight = none →
    issueCheck s.params.lmemSize { op := i, regs := s.regs } = some e →
    exec i s = .next { s with err := true, errcode :=
      if s.err then s.errcode else
        match e with
        | .illegalCmd => 1 | .badCfg => 2 | .badDim => 3 | .misaligned => 4 | .outOfRange => 5
        | .overlap => 6 | .busy => 7 }

/-- 60_exceptions.md R221 with 30_encoding.md R83, R84: the issue checks of the commands without an LMEM region. -/
def Obligations.ScalarIssueChecks : Prop :=
  ∀ (size : Nat) (L : Latched),
    (L.op ∈ [Instr.nop, .eRed, .eAdd, .eSub, .eNeg, .eMul, .eEq, .eCteq] → issueCheck size L = none) ∧
    (L.op ∈ [Instr.eEnc, .eDec] →
      issueCheck size L = if L.B = 2 ∨ L.B = 3 ∨ L.B = 4 then none else some .badCfg) ∧
    (L.op = .sSample → issueCheck size L = if L.regs.cfg.pset = 3 then some .badCfg else none)

/-- 60_exceptions.md R221 with 30_encoding.md R84: the issue checks of the matrix commands, in plain arithmetic. -/
def Obligations.MatrixIssueChecks : Prop :=
  ∀ (size : Nat) (L : Latched),
    (L.op ∈ [Instr.mAdd, .mSub] → issueCheck size L =
      if L.R = 0 ∨ L.C = 0 then some .badDim
      else if L.src0 % 2 = 1 ∨ L.src1 % 2 = 1 ∨ L.dst % 2 = 1 then some .misaligned
      else if size < L.src0 + 2 * (L.R * L.C) ∨ size < L.src1 + 2 * (L.R * L.C) ∨
        size < L.dst + 2 * (L.R * L.C) then some .outOfRange
      else if (L.dst ≠ L.src0 ∧ L.dst < L.src0 + 2 * (L.R * L.C) ∧ L.src0 < L.dst + 2 * (L.R * L.C)) ∨
        (L.dst ≠ L.src1 ∧ L.dst < L.src1 + 2 * (L.R * L.C) ∧ L.src1 < L.dst + 2 * (L.R * L.C))
        then some .overlap
      else none) ∧
    (L.op = .mMul → issueCheck size L =
      if L.R = 0 ∨ L.C = 0 ∨ L.K = 0 then some .badDim
      else if L.src0 % 2 = 1 ∨ L.src1 % 2 = 1 ∨ L.dst % 2 = 1 then some .misaligned
      else if size < L.src0 + 2 * (L.R * L.K) ∨ size < L.src1 + 2 * (L.K * L.C) ∨
        size < L.dst + 2 * (L.R * L.C) then some .outOfRange
      else if (L.dst < L.src0 + 2 * (L.R * L.K) ∧ L.src0 < L.dst + 2 * (L.R * L.C)) ∨
        (L.dst < L.src1 + 2 * (L.K * L.C) ∧ L.src1 < L.dst + 2 * (L.R * L.C)) then some .overlap
      else none) ∧
    (L.op = .mTranspose → issueCheck size L =
      if L.R = 0 ∨ L.C = 0 then some .badDim
      else if L.src0 % 2 = 1 ∨ L.dst % 2 = 1 then some .misaligned
      else if size < L.src0 + 2 * (L.R * L.C) ∨ size < L.dst + 2 * (L.R * L.C) then some .outOfRange
      else if L.dst < L.src0 + 2 * (L.R * L.C) ∧ L.src0 < L.dst + 2 * (L.R * L.C) then some .overlap
      else none) ∧
    (L.op ∈ [Instr.mEq, .mCteq] → issueCheck size L =
      if L.R = 0 ∨ L.C = 0 then some .badDim
      else if L.src0 % 2 = 1 ∨ L.src1 % 2 = 1 then some .misaligned
      else if size < L.src0 + 2 * (L.R * L.C) ∨ size < L.src1 + 2 * (L.R * L.C) then some .outOfRange
      else none)

/-- 60_exceptions.md R221 with 30_encoding.md R83, R84: the issue checks of S_SAMPLE_MAT and the codec commands,
in plain arithmetic. -/
def Obligations.SamplerAndCodecIssueChecks : Prop :=
  ∀ (size : Nat) (L : Latched),
    (L.op ∈ [Instr.sSampleMat, .cLoadLe] → issueCheck size L =
      if L.op = .sSampleMat ∧ L.regs.cfg.pset = 3 then some .badCfg
      else if L.R = 0 ∨ L.C = 0 then some .badDim
      else if L.dst % 2 = 1 then some .misaligned
      else if size < L.src0 + 2 * (L.R * L.C) ∨ size < L.dst + 2 * (L.R * L.C) then some .outOfRange
      else if L.dst ≠ L.src0 ∧ L.dst < L.src0 + 2 * (L.R * L.C) ∧ L.src0 < L.dst + 2 * (L.R * L.C)
        then some .overlap
      else none) ∧
    (L.op = .cStoreLe → issueCheck size L =
      if L.R = 0 ∨ L.C = 0 then some .badDim
      else if L.src0 % 2 = 1 then some .misaligned
      else if size < L.src0 + 2 * (L.R * L.C) ∨ size < L.dst + 2 * (L.R * L.C) then some .outOfRange
      else if L.dst ≠ L.src0 ∧ L.dst < L.src0 + 2 * (L.R * L.C) ∧ L.src0 < L.dst + 2 * (L.R * L.C)
        then some .overlap
      else none) ∧
    (L.op = .cEncode → issueCheck size L =
      if L.B ≠ 2 ∧ L.B ≠ 3 ∧ L.B ≠ 4 then some .badCfg
      else if L.R = 0 ∨ L.C = 0 ∨ L.R * L.C % 8 ≠ 0 then some .badDim
      else if L.dst % 2 = 1 then some .misaligned
      else if size < L.src0 + L.R * L.C * L.B / 8 ∨ size < L.dst + 2 * (L.R * L.C) then some .outOfRange
      else if L.dst < L.src0 + L.R * L.C * L.B / 8 ∧ L.src0 < L.dst + 2 * (L.R * L.C) then some .overlap
      else none) ∧
    (L.op = .cDecode → issueCheck size L =
      if L.B ≠ 2 ∧ L.B ≠ 3 ∧ L.B ≠ 4 then some .badCfg
      else if L.R = 0 ∨ L.C = 0 ∨ L.R * L.C % 8 ≠ 0 then some .badDim
      else if L.src0 % 2 = 1 then some .misaligned
      else if size < L.src0 + 2 * (L.R * L.C) ∨ size < L.dst + L.R * L.C * L.B / 8 then some .outOfRange
      else if L.dst < L.src0 + 2 * (L.R * L.C) ∧ L.src0 < L.dst + L.R * L.C * L.B / 8 then some .overlap
      else none) ∧
    (L.op = .cPack → issueCheck size L =
      if L.R = 0 ∨ L.C = 0 then some .badDim
      else if L.src0 % 2 = 1 then some .misaligned
      else if size < L.src0 + 2 * (L.R * L.C) ∨ size < L.dst + (L.R * L.C * L.D + 7) / 8
        then some .outOfRange
      else if L.dst < L.src0 + 2 * (L.R * L.C) ∧ L.src0 < L.dst + (L.R * L.C * L.D + 7) / 8
        then some .overlap
      else none) ∧
    (L.op = .cUnpack → issueCheck size L =
      if L.R = 0 ∨ L.C = 0 then some .badDim
      else if L.dst % 2 = 1 then some .misaligned
      else if size < L.src0 + (L.R * L.C * L.D + 7) / 8 ∨ size < L.dst + 2 * (L.R * L.C)
        then some .outOfRange
      else if L.dst < L.src0 + (L.R * L.C * L.D + 7) / 8 ∧ L.src0 < L.dst + 2 * (L.R * L.C)
        then some .overlap
      else none)

/-! ### Completions: ring elements -/

/-- 40_ring_element.md R102: NOP sets DONE, clears BUSY and does nothing else. -/
def Obligations.NopOnlySetsDone : Prop :=
  ∀ (s : State) (L : Latched), s.inflight = some L → L.op = .nop →
    exec .nop s = .next { s with done := true, inflight := none }

/-- 40_ring_element.md R100, R101, R103 to R107: the ring operations are exact integer operations on OPA and OPB
followed by reduction mod q, and nothing else changes. -/
def Obligations.RingOperationsWrapModQ : Prop :=
  ∀ (s : State) (L : Latched), s.inflight = some L →
    let a : Int := L.regs.opa.toNat
    let b : Int := L.regs.opb.toNat
    let q : Int := 2 ^ (15 + L.regs.cfg.dsel.toNat)
    let result := fun v : Int =>
      { s with done := true, inflight := none, res := BitVec.ofNat 32 (v % q).toNat }
    (L.op = .eRed → exec .eRed s = .next (result a)) ∧
    (L.op = .eAdd → exec .eAdd s = .next (result (a + b))) ∧
    (L.op = .eSub → exec .eSub s = .next (result (a - b))) ∧
    (L.op = .eNeg → exec .eNeg s = .next (result (-a))) ∧
    (L.op = .eMul → exec .eMul s = .next (result (a * b)))

/-- 40_ring_element.md R108, R109: E_ENC places k = OPA mod 2^B in the high bits; E_DEC rounds v * 2^B / q to the
nearest integer, a half rounding up, modulo 2^B. -/
def Obligations.ElementEncodeAndDecode : Prop :=
  ∀ (s : State) (L : Latched), s.inflight = some L →
    L.B = 2 ∨ L.B = 3 ∨ L.B = 4 →
    (L.op = .eEnc → exec .eEnc s = .next { s with
      done := true, inflight := none,
      res := BitVec.ofNat 32 (L.regs.opa.toNat % 2 ^ L.B * 2 ^ (L.D - L.B)) }) ∧
    (L.op = .eDec → exec .eDec s = .next { s with
      done := true, inflight := none,
      res := BitVec.ofNat 32
        ((L.regs.opa.toNat % 2 ^ L.D + 2 ^ (L.D - L.B - 1)) / 2 ^ (L.D - L.B) % 2 ^ L.B) })

/-- 40_ring_element.md R110, R111: equality of the reduced values, as 1 or 0 and as a 16-bit mask. -/
def Obligations.ElementEqualityResults : Prop :=
  ∀ (s : State) (L : Latched), s.inflight = some L →
    (L.op = .eEq → exec .eEq s = .next { s with
      done := true, inflight := none,
      res := if L.regs.opa.toNat % 2 ^ L.D = L.regs.opb.toNat % 2 ^ L.D then 0x00000001 else 0x00000000 }) ∧
    (L.op = .eCteq → exec .eCteq s = .next { s with
      done := true, inflight := none,
      res := if L.regs.opa.toNat % 2 ^ L.D = L.regs.opb.toNat % 2 ^ L.D then 0x0000FFFF else 0x00000000 })

/-- 40_ring_element.md R112: decoding an encoded k with noise e in the rounding tolerance gives k. -/
def Obligations.DecodeToleratesNoise : Prop :=
  ∀ (d b k : Nat) (e : Int), (d = 15 ∨ d = 16) → (b = 2 ∨ b = 3 ∨ b = 4) → k < 2 ^ b →
    -2 ^ (d - b - 1) ≤ e → e < 2 ^ (d - b - 1) →
    decodeElem d b (((encodeElem d b k : Int) + e) % 2 ^ d).toNat = k

/-! ### Completions: matrices -/

/-- 41_matrix.md R131: M_ADD writes the elementwise sums at DST; every element written is canonical, below q, whatever
the sources hold (20_memory.md R64); every other byte and register is unchanged. -/
def Obligations.MAddWritesSums : Prop :=
  ∀ (s : State) (L : Latched), s.ready .mAdd L →
    ∃ t, exec .mAdd s = .next t ∧ wroteElems s t L (L.R * L.C) ∧
      ∀ k < L.R * L.C, ∀ x y,
        storedElem s.lmem L.q (L.src0 + 2 * k) = some x → storedElem s.lmem L.q (L.src1 + 2 * k) = some y →
        storedWord t.lmem (L.dst + 2 * k) = some ((x + y) % L.q)

/-- 41_matrix.md R132: M_SUB writes the elementwise differences mod q at DST; every element written is canonical,
below q, whatever the sources hold (20_memory.md R64); every other byte and register is unchanged. -/
def Obligations.MSubWritesDifferences : Prop :=
  ∀ (s : State) (L : Latched), s.ready .mSub L →
    ∃ t, exec .mSub s = .next t ∧ wroteElems s t L (L.R * L.C) ∧
      ∀ k < L.R * L.C, ∀ x y,
        storedElem s.lmem L.q (L.src0 + 2 * k) = some x → storedElem s.lmem L.q (L.src1 + 2 * k) = some y →
        storedWord t.lmem (L.dst + 2 * k) = some (((x : Int) - y) % L.q).toNat

/-- 41_matrix.md R134: M_MUL writes at DST the exact inner products of the rows of X (R×K) and the columns of Y (K×C),
reduced; every element written is canonical, below q, whatever the sources hold (20_memory.md R64); every other byte
and register is unchanged. -/
def Obligations.MMulWritesInnerProducts : Prop :=
  ∀ (s : State) (L : Latched), s.ready .mMul L →
    ∃ t, exec .mMul s = .next t ∧ wroteElems s t L (L.R * L.C) ∧
      ∀ i < L.R, ∀ j < L.C, ∀ x y : Nat → Nat,
        (∀ k < L.K, storedElem s.lmem L.q (L.src0 + 2 * (i * L.K + k)) = some (x k)) →
        (∀ k < L.K, storedElem s.lmem L.q (L.src1 + 2 * (k * L.C + j)) = some (y k)) →
        storedWord t.lmem (L.dst + 2 * (i * L.C + j)) =
          some ((∑ k ∈ Finset.range L.K, x k * y k) % L.q)

/-- 41_matrix.md R135: M_TRANSPOSE writes X[i][j] at row j, column i of the C×R result; every element written is
canonical, below q, whatever the sources hold (20_memory.md R64); every other byte and register is unchanged. -/
def Obligations.MTransposeSwapsIndices : Prop :=
  ∀ (s : State) (L : Latched), s.ready .mTranspose L →
    ∃ t, exec .mTranspose s = .next t ∧ wroteElems s t L (L.C * L.R) ∧
      ∀ i < L.R, ∀ j < L.C, ∀ x,
        storedElem s.lmem L.q (L.src0 + 2 * (i * L.C + j)) = some x →
        storedWord t.lmem (L.dst + 2 * (j * L.R + i)) = some x

/-- 41_matrix.md R136, R137: M_EQ gives 1 or 0 and M_CTEQ a 16-bit mask, both for the equality of all reduced
elements; no LMEM byte and no other register changes. -/
def Obligations.MatrixEqualityResults : Prop :=
  ∀ (s : State) (L : Latched),
    (s.ready .mEq L →
      ∃ t v, exec .mEq s = .next t ∧ wroteRes s t v ∧ (v = 0 ∨ v = 1) ∧
        ∀ x y : Nat → Nat,
          (∀ k < L.R * L.C, storedElem s.lmem L.q (L.src0 + 2 * k) = some (x k)) →
          (∀ k < L.R * L.C, storedElem s.lmem L.q (L.src1 + 2 * k) = some (y k)) →
          (v = 1 ↔ ∀ k < L.R * L.C, x k = y k)) ∧
    (s.ready .mCteq L →
      ∃ t v, exec .mCteq s = .next t ∧ wroteRes s t v ∧ (v = 0 ∨ v = 0xFFFF) ∧
        ∀ x y : Nat → Nat,
          (∀ k < L.R * L.C, storedElem s.lmem L.q (L.src0 + 2 * k) = some (x k)) →
          (∀ k < L.R * L.C, storedElem s.lmem L.q (L.src1 + 2 * k) = some (y k)) →
          (v = 0xFFFF ↔ ∀ k < L.R * L.C, x k = y k))

/-- 41_matrix.md R132, the property "(A + B) - B == A": subtracting SRC1 from the sum that M_ADD left at DST gives
the elements of SRC0 again. -/
def Obligations.SubtractUndoesAdd : Prop :=
  ∀ (s t u v : State) (L M : Latched), s.ready .mAdd L → exec .mAdd s = .next t →
    u.ready .mSub M → u.lmem = t.lmem → M.q = L.q → M.R * M.C = L.R * L.C →
    M.src0 = L.dst → M.src1 = L.src1 →
    (L.src1 + 2 * (L.R * L.C) ≤ L.dst ∨ L.dst + 2 * (L.R * L.C) ≤ L.src1) →
    exec .mSub u = .next v →
    ∀ k < L.R * L.C, ∀ x y,
      storedElem s.lmem L.q (L.src0 + 2 * k) = some x → storedElem s.lmem L.q (L.src1 + 2 * k) = some y →
      storedWord v.lmem (M.dst + 2 * k) = some x

/-- 41_matrix.md R135, "Transpose involution": transposing twice, with ROWS and COLS swapped for the second
command, gives the original reduced matrix. -/
def Obligations.TransposeTwiceIsIdentity : Prop :=
  ∀ (s t u v : State) (L M : Latched), s.ready .mTranspose L → exec .mTranspose s = .next t →
    u.ready .mTranspose M → u.lmem = t.lmem → M.q = L.q → M.R = L.C → M.C = L.R → M.src0 = L.dst →
    exec .mTranspose u = .next v →
    ∀ k < L.R * L.C, ∀ x, storedElem s.lmem L.q (L.src0 + 2 * k) = some x →
      storedWord v.lmem (M.dst + 2 * k) = some x

/-! ### Completions: the sampler -/

/-- 42_error_sampler.md R160: the table T(p) that the ROM holds for p = 0, 1, 2 has an entry for each entry of CHI[p]:
T(p)[0] = CHI[p][0] div 2 - 1, and T(p)[z] = T(p)[0] + the sum of CHI[p][1] to CHI[p][z]. -/
def Obligations.CdfTableFromFrequencies : Prop :=
  ∀ (p : Config.Params) (sel : BitVec 2) (chi : List Nat),
    (sel = 0 ∧ chi = p.chi640) ∨ (sel = 1 ∧ chi = p.chi976) ∨ (sel = 2 ∧ chi = p.chi1344) →
    (cdfTable p sel).length = chi.length ∧
    ∀ z < chi.length, (cdfTable p sel)[z]? = some (chi.headD 0 / 2 - 1 + ∑ y ∈ Finset.Icc 1 z, chi.getD y 0)

/-- 42_error_sampler.md R162: the tables that the default frequencies of R161 give. -/
def Obligations.DefaultCdfTables : Prop :=
  cdfTable Config.Params.default 0 =
    [4643, 13363, 20579, 25843, 29227, 31145, 32103, 32525, 32689, 32745, 32762, 32766, 32767] ∧
  cdfTable Config.Params.default 1 =
    [5638, 15915, 23689, 28571, 31116, 32217, 32613, 32731, 32760, 32766, 32767] ∧
  cdfTable Config.Params.default 2 = [9142, 23462, 30338, 32361, 32725, 32765, 32767]

/-- 42_error_sampler.md R163, R164: S_SAMPLE counts the table entries that OPA[15:1] exceeds, negates the count mod q
if OPA[0] is 1, and changes nothing else. The parameters are legal, as the invariant says (R9). -/
def Obligations.SSampleCountsExceededEntries : Prop :=
  ∀ (s : State) (L : Latched), s.params.wellFormed = true → s.inflight = some L → L.op = .sSample →
    L.regs.cfg.pset ≠ 3 →
    let n := ((cdfTable s.params L.regs.cfg.pset).filter
      (fun e => decide (e < (L.regs.opa.extractLsb' 1 15).toNat))).length
    exec .sSample s = .next { s with
      done := true, inflight := none,
      res := BitVec.ofNat 32
        ((if L.regs.opa.getLsbD 0 then -(n : Int) else (n : Int)) % 2 ^ L.D).toNat }

/-- 42_error_sampler.md R165: S_SAMPLE_MAT samples each 16-bit little-endian entry, unreduced, into the element of the
same index; every element written is canonical, below q, whatever the sources hold (20_memory.md R64); every other
byte and register is unchanged. The parameters are legal, as the invariant says (R9). -/
def Obligations.SSampleMatSamplesEveryEntry : Prop :=
  ∀ (s : State) (L : Latched), s.params.wellFormed = true → s.ready .sSampleMat L →
    ∃ t, exec .sSampleMat s = .next t ∧ wroteElems s t L (L.R * L.C) ∧
      ∀ k < L.R * L.C, ∀ r, storedWord s.lmem (L.src0 + 2 * k) = some r →
        let n := ((cdfTable s.params L.regs.cfg.pset).filter (fun e => decide (e < r / 2))).length
        storedWord t.lmem (L.dst + 2 * k) =
          some ((if r % 2 = 1 then -(n : Int) else (n : Int)) % 2 ^ L.D).toNat

/-- 42_error_sampler.md R167: flipping the sign bit negates the sample mod q, and a sample is at most the number of
entries away from 0. -/
def Obligations.SampleSignSymmetryAndRange : Prop :=
  ∀ (table : List Nat) (d r : Nat), table.length < 2 ^ d →
    sample table d (r ^^^ 1) = (2 ^ d - sample table d r) % 2 ^ d ∧
    (sample table d r ≤ table.length ∨ 2 ^ d - table.length ≤ sample table d r) ∧
    sample table d r < 2 ^ d

/-! ### Completions: the codec -/

/-- 43_codec.md R180, R181: C_ENCODE takes the B stream bits of each element, least significant first, and places them
in the high bits of the element; every element written is canonical, below q, whatever the sources hold (20_memory.md
R64); every other byte and register is unchanged. -/
def Obligations.CEncodePlacesMessageBits : Prop :=
  ∀ (s : State) (L : Latched), s.ready .cEncode L →
    ∃ t, exec .cEncode s = .next t ∧ wroteElems s t L (L.R * L.C) ∧
      ∀ k < L.R * L.C, ∀ b : Nat → Byte,
        (∀ l < L.B, Memory.lookup s.lmem (L.src0 + (k * L.B + l) / 8) = some (b l)) →
        storedWord t.lmem (L.dst + 2 * k) =
          some ((∑ l ∈ Finset.range L.B, ((b l).getLsbD ((k * L.B + l) % 8)).toNat * 2 ^ l) * 2 ^ (L.D - L.B))

/-- 43_codec.md R180, R182: C_DECODE rounds each element to B bits and lays them out by the stream of R180; every
other byte and register is unchanged. -/
def Obligations.CDecodeLaysOutRoundedBits : Prop :=
  ∀ (s : State) (L : Latched), s.ready .cDecode L →
    ∃ t, exec .cDecode s = .next t ∧ wroteRegion s t (byteRegion L.dst (L.R * L.C * L.B / 8)) ∧
      ∀ k < L.R * L.C, ∀ l < L.B, ∀ v, storedElem s.lmem L.q (L.src0 + 2 * k) = some v →
        ∃ c, Memory.lookup t.lmem (L.dst + (k * L.B + l) / 8) = some c ∧
          c.getLsbD ((k * L.B + l) % 8) =
            ((v * 2 ^ L.B + 2 ^ (L.D - 1)) / 2 ^ L.D % 2 ^ L.B).testBit l

/-- 43_codec.md R183, R184: C_PACK lays the D bits of every element, most significant first, into bytes filled from
the most significant bit, and pads the last byte with 0; every other byte and register is unchanged. -/
def Obligations.CPackLaysOutElementBits : Prop :=
  ∀ (s : State) (L : Latched), s.ready .cPack L →
    ∃ t, exec .cPack s = .next t ∧
      wroteRegion s t (byteRegion L.dst ((L.R * L.C * L.D + 7) / 8)) ∧
      (∀ k < L.R * L.C, ∀ l < L.D, ∀ v, storedElem s.lmem L.q (L.src0 + 2 * k) = some v →
        ∃ c, Memory.lookup t.lmem (L.dst + (k * L.D + l) / 8) = some c ∧
          c.getLsbD (7 - (k * L.D + l) % 8) = v.testBit (L.D - 1 - l)) ∧
      (∀ p, L.R * L.C * L.D ≤ p → p < 8 * ((L.R * L.C * L.D + 7) / 8) →
        ∃ c, Memory.lookup t.lmem (L.dst + p / 8) = some c ∧ c.getLsbD (7 - p % 8) = false)

/-- 43_codec.md R185: C_UNPACK takes the D stream bits of each element, most significant first; every element written
is canonical, below q, whatever the sources hold (20_memory.md R64); every other byte and register is unchanged. -/
def Obligations.CUnpackReadsElementBits : Prop :=
  ∀ (s : State) (L : Latched), s.ready .cUnpack L →
    ∃ t, exec .cUnpack s = .next t ∧ wroteElems s t L (L.R * L.C) ∧
      ∀ k < L.R * L.C, ∀ b : Nat → Byte,
        (∀ l < L.D, Memory.lookup s.lmem (L.src0 + (k * L.D + l) / 8) = some (b l)) →
        storedWord t.lmem (L.dst + 2 * k) =
          some (∑ l ∈ Finset.range L.D,
            ((b l).getLsbD (7 - (k * L.D + l) % 8)).toNat * 2 ^ (L.D - 1 - l))

/-- 43_codec.md R188 to R190: C_STORE_LE writes each reduced element as two little-endian bytes at any base, and
C_LOAD_LE reduces each little-endian pair into an element; every element that C_LOAD_LE writes is canonical, below q,
whatever the source holds (20_memory.md R64); every other byte and register is unchanged. -/
def Obligations.RawLittleEndianStoreAndLoad : Prop :=
  ∀ (s : State) (L : Latched),
    (s.ready .cStoreLe L →
      ∃ t, exec .cStoreLe s = .next t ∧ wroteRegion s t (byteRegion L.dst (2 * (L.R * L.C))) ∧
        ∀ k < L.R * L.C, ∀ x, storedElem s.lmem L.q (L.src0 + 2 * k) = some x →
          Memory.lookup t.lmem (L.dst + 2 * k) = some (BitVec.ofNat 8 (x % 256)) ∧
          Memory.lookup t.lmem (L.dst + 2 * k + 1) = some (BitVec.ofNat 8 (x / 256))) ∧
    (s.ready .cLoadLe L →
      ∃ t, exec .cLoadLe s = .next t ∧ wroteElems s t L (L.R * L.C) ∧
        ∀ k < L.R * L.C, ∀ b0 b1 : Byte,
          Memory.lookup s.lmem (L.src0 + 2 * k) = some b0 →
          Memory.lookup s.lmem (L.src0 + 2 * k + 1) = some b1 →
          storedWord t.lmem (L.dst + 2 * k) = some ((b0.toNat + 256 * b1.toNat) % L.q))

/-- 43_codec.md R187, "Pack/unpack identity": C_UNPACK of what C_PACK wrote gives back every reduced element. -/
def Obligations.UnpackOfPackIsIdentity : Prop :=
  ∀ (s t u v : State) (L M : Latched), s.ready .cPack L → exec .cPack s = .next t →
    u.ready .cUnpack M → u.lmem = t.lmem → M.D = L.D → M.R * M.C = L.R * L.C → M.src0 = L.dst →
    exec .cUnpack u = .next v →
    ∀ k < L.R * L.C, ∀ x, storedElem s.lmem L.q (L.src0 + 2 * k) = some x →
      storedWord v.lmem (M.dst + 2 * k) = some x

/-- 43_codec.md R187: for every byte string x of N*B/8 bytes, C_DECODE(C_ENCODE(x)) = x. -/
def Obligations.DecodeOfEncodeIsIdentity : Prop :=
  ∀ (s t u v : State) (L M : Latched), s.ready .cEncode L → exec .cEncode s = .next t →
    u.ready .cDecode M → u.lmem = t.lmem → M.D = L.D → M.B = L.B → M.R * M.C = L.R * L.C →
    M.src0 = L.dst → exec .cDecode u = .next v →
    Memory.written s.lmem L.src0 (L.R * L.C * L.B / 8) = true →
    ∀ j < L.R * L.C * L.B / 8,
      Memory.lookup v.lmem (M.dst + j) = Memory.lookup s.lmem (L.src0 + j)

/-! ### Frames and whole-machine rules -/

/-- 60_exceptions.md R230, 20_memory.md R71, 10_state.md R32: whatever a command does in one step, the operand
registers, CTRL, the reset pin, the host port and the parameters are unchanged, DONE is never cleared, RES is
unchanged by a command that writes only LMEM and by NOP, and every byte of LMEM outside the destination region
of the latched command is unchanged. 20_memory.md R79: the count of draws (the model's own form, log 5) never falls, and a
completion raises it by at least one for each byte of its sources, M_MUL by one for each byte of each of the 2 * R * C * K
elements that its products read, so that no later read uses one of the same draws. -/
def Obligations.FrameOfEveryCommand : Prop :=
  ∀ (i : Instr) (s t : State), exec i s = .next t →
    t.regs = s.regs ∧ t.ie = s.ie ∧ t.inReset = s.inReset ∧ t.stalled = s.stalled ∧ t.resp = s.resp ∧
    t.inputs = s.inputs ∧ t.params = s.params ∧ (s.done = true → t.done = true) ∧
    (s.inflight = none → t.res = s.res ∧ t.lmem = s.lmem ∧ t.done = s.done) ∧
    (i ∈ [Instr.nop, .mAdd, .mSub, .mMul, .mTranspose, .sSampleMat, .cEncode, .cDecode, .cPack, .cUnpack,
      .cStoreLe, .cLoadLe] → t.res = s.res) ∧
    (∀ L, s.ready i L → t.err = s.err ∧ t.errcode = s.errcode) ∧
    s.draws ≤ t.draws ∧
    (∀ L, s.ready i L → s.draws + (L.sources.map (·.len)).sum ≤ t.draws) ∧
    (∀ L, s.ready .mMul L → i = .mMul → s.draws + 4 * (L.R * L.C * L.K) ≤ t.draws) ∧
    ∀ a, (∀ L r, s.inflight = some L → L.dest = some r → r.covers a = false) →
      Memory.lookup t.lmem a = Memory.lookup s.lmem a

/-- 60_exceptions.md R225: DONE is set by every completion and by nothing else (a command in flight ends by its completion
or by a reset), and stays 1 until the host clears it or a reset. A host write counts only while no LMEM access is
stalled, since the host starts nothing then (20_memory.md R70). -/
def Obligations.DoneSetByCompletionOnly : Prop :=
  ∀ s t : State, step s = .next t →
    (s.busy = true → t.busy = false → t.done = true ∨
      ∃ rest, s.inputs = .resetAssert :: rest ∨
        (s.stalled = none ∧ ∃ w : Word, w.getLsbD 1 = true ∧ s.inputs = .csr (.write 4 0x004 w) :: rest)) ∧
    (s.done = false → t.done = true → s.busy = true ∧ t.busy = false) ∧
    (s.done = true → t.done = false → ∃ rest,
      (s.stalled = none ∧ ∃ w : Word, w.getLsbD 1 = true ∧
        (s.inputs = .csr (.write 4 0x008 w) :: rest ∨ s.inputs = .statusWriteAtCompletion w :: rest ∨
          s.inputs = .csr (.write 4 0x004 w) :: rest)) ∨
      s.inputs = .resetAssert :: rest)

/-- 60_exceptions.md R222, R229: while ERR stays 1 the recorded code stays the first one. -/
def Obligations.FirstErrorCodeIsKept : Prop :=
  ∀ s t : State, step s = .next t → s.err = true → t.err = true → t.errcode = s.errcode

/-- 10_state.md R32: RES changes only at a completion or a reset, never in a step after which the command in flight
is still in flight. -/
def Obligations.ResChangesOnlyAtCompletionOrReset : Prop :=
  ∀ s t : State, step s = .next t → t.res ≠ s.res →
    (∃ L, s.inflight = some L ∧ t.inflight = none ∧ writesRes L.op = true) ∨
    (s.stalled = none ∧ ∃ w rest, s.inputs = .csr (.write 4 0x004 w) :: rest ∧ w.getLsbD 1 = true) ∨
    (∃ rest, s.inputs = .resetAssert :: rest)

/-- 10_state.md R36, 70_reset_and_hazards.md R260: no step changes the latched copy of the command in flight; it is
kept or dropped. -/
def Obligations.LatchedCommandIsNeverChanged : Prop :=
  ∀ (s t : State) (L : Latched), step s = .next t → s.inflight = some L →
    t.inflight = some L ∨ t.inflight = none

/-- 10_state.md R37: no command, no host access and no reset changes the CDF ROM, nor any other parameter. -/
def Obligations.CdfRomIsReadOnly : Prop :=
  ∀ s t : State, step s = .next t →
    t.params = s.params ∧ ∀ sel, cdfTable t.params sel = cdfTable s.params sel

/-- 20_memory.md R69, R71: while a command is in flight no step changes LMEM but its completion and a reset, so a
completion reads the LMEM of its issue. -/
def Obligations.LmemIsStillWhileBusy : Prop :=
  ∀ s t : State, step s = .next t → s.busy = true → t.busy = true → t.lmem = s.lmem

/-- 20_memory.md R71: a completion reads LMEM only inside the source regions of its command: two blocks that agree on
the source bytes (and on the registers, the parameters and the free values to come) write the same RES and the same
destination bytes. -/
def Obligations.CompletionReadsOnlyItsSources : Prop :=
  ∀ (i : Instr) (s s' t t' : State) (L : Latched), s.ready i L → s'.ready i L →
    s'.params = s.params → s'.draws = s.draws → s'.res = s.res →
    (∀ r ∈ L.sources, ∀ a, r.covers a = true → Memory.lookup s'.lmem a = Memory.lookup s.lmem a) →
    exec i s = .next t → exec i s' = .next t' →
    t'.res = t.res ∧ t'.draws = t.draws ∧
    ∀ r, L.dest = some r → ∀ a, r.covers a = true → Memory.lookup t'.lmem a = Memory.lookup t.lmem a

/-! ### The host port -/

/-- 10_state.md R22 to R34, 20_memory.md R67: what each register reads, also while BUSY = 1; a read changes nothing
but the answer on the host port. While CFG.PSET = 3, CDF_LEN and every CDF_Tz read 0 (R34, 93 U7). -/
def Obligations.RegisterReads : Prop :=
  ∀ (s : State) (offset : Nat) (rest : List Input), s.running →
    s.inputs = .csr (.read 4 offset) :: rest →
    let answered := fun v : Nat =>
      step s = .next { s with inputs := rest, resp := .data (BitVec.ofNat 32 v) }
    (offset = 0x000 → answered 0x464B0001) ∧
    (offset = 0x004 → answered s.ie.toNat) ∧
    (offset = 0x008 → answered (s.busy.toNat + 2 * s.done.toNat + 4 * s.err.toNat + 256 * s.errcode.toNat)) ∧
    (offset = 0x00C → answered
      (s.regs.cfg.dsel.toNat + 16 * s.regs.cfg.bsel.toNat + 256 * s.regs.cfg.pset.toNat)) ∧
    (offset = 0x010 → answered 0) ∧
    (offset = 0x014 → answered s.regs.src0.toNat) ∧
    (offset = 0x018 → answered s.regs.src1.toNat) ∧
    (offset = 0x01C → answered s.regs.dst.toNat) ∧
    (offset = 0x020 → answered s.regs.rows.toNat) ∧
    (offset = 0x024 → answered s.regs.cols.toNat) ∧
    (offset = 0x028 → answered s.regs.inner.toNat) ∧
    (offset = 0x02C → answered s.regs.opa.toNat) ∧
    (offset = 0x030 → answered s.regs.opb.toNat) ∧
    (offset = 0x034 → answered s.res.toNat) ∧
    (offset = 0x038 → answered s.params.lmemSize) ∧
    (offset = 0x03C → answered (cdfTable s.params s.regs.cfg.pset).length) ∧
    (∀ z < 16, offset = 0x040 + 4 * z → answered ((cdfTable s.params s.regs.cfg.pset).getD z 0)) ∧
    (s.regs.cfg.pset = 3 → offset = 0x03C → answered 0) ∧
    (s.regs.cfg.pset = 3 → ∀ z < 16, offset = 0x040 + 4 * z → answered 0) ∧
    (0x080 ≤ offset → offset ≤ 0xFFC → offset % 4 = 0 → answered 0)

/-- 10_state.md R26, R28, R30, R31: a write of an operand register stores its writable bits and changes nothing else,
also while BUSY = 1. -/
def Obligations.OperandRegisterWrites : Prop :=
  ∀ (s : State) (offset : Nat) (w : Word) (rest : List Input), s.running →
    s.inputs = .csr (.write 4 offset w) :: rest →
    let stored := fun r : OpRegs => step s = .next { s with inputs := rest, resp := .written, regs := r }
    (offset = 0x00C → stored { s.regs with cfg :=
      { dsel := w.getLsbD 0, bsel := BitVec.ofNat 3 (w.toNat / 16), pset := BitVec.ofNat 2 (w.toNat / 256) } }) ∧
    (offset = 0x014 → stored { s.regs with src0 := w }) ∧
    (offset = 0x018 → stored { s.regs with src1 := w }) ∧
    (offset = 0x01C → stored { s.regs with dst := w }) ∧
    (offset = 0x020 → stored { s.regs with rows := BitVec.ofNat 16 w.toNat }) ∧
    (offset = 0x024 → stored { s.regs with cols := BitVec.ofNat 16 w.toNat }) ∧
    (offset = 0x028 → stored { s.regs with inner := BitVec.ofNat 16 w.toNat }) ∧
    (offset = 0x02C → stored { s.regs with opa := w }) ∧
    (offset = 0x030 → stored { s.regs with opb := w })

/-- 10_state.md R29: writes of read-only registers and of reserved offsets are ignored. -/
def Obligations.ReadOnlyAndReservedWritesIgnored : Prop :=
  ∀ (s : State) (offset : Nat) (w : Word) (rest : List Input), s.running →
    s.inputs = .csr (.write 4 offset w) :: rest →
    offset % 4 = 0 → (offset = 0x000 ∨ (0x034 ≤ offset ∧ offset ≤ 0xFFC)) →
    step s = .next { s with inputs := rest, resp := .written }

/-- 60_exceptions.md R236: an access the block does not admit, to a register or (while BUSY = 0) to LMEM, gets a bus
error and changes nothing else; ERR is not set. That a register offset from 0x1000 up (log 12) and an LMEM width
other than 1, 2 or 4 bytes (log 13) are not admitted is the model's choice. -/
def Obligations.InadmissibleAccessIsBusError : Prop :=
  ∀ (s : State) (rest : List Input), s.running →
    let refused := step s = .next { s with inputs := rest, resp := .busError }
    (∀ width offset : Nat, width ≠ 4 ∨ offset % 4 ≠ 0 ∨ 0x1000 ≤ offset →
      (s.inputs = .csr (.read width offset) :: rest → refused) ∧
      (∀ w, s.inputs = .csr (.write width offset w) :: rest → refused)) ∧
    (s.busy = false → ∀ n a : Nat,
      (n ≠ 1 ∧ n ≠ 2 ∧ n ≠ 4) ∨ a % n ≠ 0 ∨ s.params.lmemSize < a + n →
      (s.inputs = .lmem (.read n a) :: rest → refused) ∧
      (∀ w, s.inputs = .lmem (.write n a w) :: rest → refused))

/-- 20_memory.md R68, R61: a host write of n = 1, 2 or 4 bytes stores the low n bytes of its data, least significant byte
first; every byte outside the access is unchanged, and so is every register, whatever comes next. The same read right
after it answers those bytes. The rules give data below 256^n only: that a wider data word is cut to its low n bytes, and
that a narrow read answers in the low bits with 0 above, is the model's reading (log 14). -/
def Obligations.HostLmemWriteReadsBack : Prop :=
  ∀ (s : State) (n a : Nat) (w : Word) (rest : List Input), s.running → s.busy = false →
    (n = 1 ∨ n = 2 ∨ n = 4) → a % n = 0 → a + n ≤ s.params.lmemSize →
    s.inputs = .lmem (.write n a w) :: rest →
    ∃ t, step s = .next t ∧
      t = { s with inputs := rest, resp := .written, lmem := t.lmem } ∧
      (∀ k < n, Memory.lookup t.lmem (a + k) = some (w.extractLsb' (8 * k) 8)) ∧
      (∀ x, x < a ∨ a + n ≤ x → Memory.lookup t.lmem x = Memory.lookup s.lmem x) ∧
      ∀ rest', rest = .lmem (.read n a) :: rest' → ∃ u, step t = .next u ∧
        u = { t with inputs := rest', resp := .data (BitVec.ofNat 32 (w.toNat % 256 ^ n)), draws := u.draws }

/-- 20_memory.md R61, R68, R79: a host read of n = 1, 2 or 4 bytes answers the sum of its bytes times 256^k, lowest address
first, whoever wrote them and by whatever widths: a written byte is the byte last written, and each byte never written is
a free draw of its own, which no later read uses; nothing else changes. Nothing is known of a draw; that draws are counted,
and in this order, is the model's own form (log 5), and that the bits above the width are 0 its reading (log 14). -/
def Obligations.HostLmemReadAnswersBytes : Prop :=
  ∀ (s : State) (n a : Nat) (rest : List Input), s.running → s.busy = false →
    (n = 1 ∨ n = 2 ∨ n = 4) → a % n = 0 → a + n ≤ s.params.lmemSize → s.inputs = .lmem (.read n a) :: rest →
    let byte := fun k : Nat =>
      match Memory.lookup s.lmem (a + k) with
      | some b => b
      | none => Config.freeByte (s.draws + k)
    step s = .next { s with
      inputs := rest, draws := s.draws + n,
      resp := .data (BitVec.ofNat 32 (∑ k ∈ Finset.range n, (byte k).toNat * 256 ^ k)) }

/-- 20_memory.md R69, 90_conflicts.md C11: a host LMEM access made while BUSY = 1 is held; while it is held the
completion comes before any host input; then the access is performed; and a hardware reset answers it with a bus
error and does not perform it (70_reset_and_hazards.md R250). That a malformed access is held as well, and that each
of these is a step of its own, is the model's reading (log 9); that LMEM then lists no byte is its form of "unspecified"
(R251, log 6), chosen for an abandoned command's sources too (log 24). -/
def Obligations.LmemAccessStallsWhileBusy : Prop :=
  ∀ (s : State) (a : LmemAccess) (rest : List Input), s.inReset = false →
    (s.stalled = none → s.busy = true → s.inputs = .lmem a :: rest →
      step s = .next { s with inputs := rest, stalled := some a, resp := .none }) ∧
    (∀ L, s.stalled = some a → s.inflight = some L →
      (∀ i rest', s.inputs = i :: rest' → i ≠ .resetAssert ∧ i ≠ .engine) →
      step s = exec L.op s) ∧
    (∀ L, s.stalled = some a → s.inflight = some L → s.inputs = .engine :: rest →
      step s = exec L.op { s with inputs := rest }) ∧
    (s.stalled = some a → s.busy = false → (∀ rest', s.inputs ≠ .resetAssert :: rest') →
      step s = .next (lmemAccess a { s with stalled := none })) ∧
    (s.stalled = some a → s.inputs = .resetAssert :: rest →
      ∃ t, step s = .next t ∧ t.resp = .busError ∧ t.stalled = none ∧ t.inputs = rest ∧ t.lmem = [])

/-! ### STATUS, interrupt and reset -/

/-- 10_state.md R25, 60_exceptions.md R226: a host write of STATUS clears DONE by bit 1 and ERR and ERRCODE by bit 2,
and changes nothing else. 10_state.md R24: a write of CTRL with bit 1 = 0 changes only IE. -/
def Obligations.StatusAndCtrlWrites : Prop :=
  ∀ (s : State) (w : Word) (rest : List Input), s.running →
    (s.inputs = .csr (.write 4 0x004 w) :: rest → w.getLsbD 1 = false →
      step s = .next { s with inputs := rest, resp := .written, ie := w.getLsbD 0 }) ∧
    (s.inputs = .csr (.write 4 0x008 w) :: rest →
    step s = .next { s with
      inputs := rest, resp := .written,
      done := if w.getLsbD 1 then false else s.done,
      err := if w.getLsbD 2 then false else s.err,
      errcode := if w.getLsbD 2 then 0 else s.errcode })

/-- 60_exceptions.md R226, R224: a STATUS write in the clock cycle of a completion clears the flags it names, and the
command in flight completes with its whole effect, by `exec` of the state so cleared; a completion that clears DONE in the
same cycle wins: DONE reads 1. With no command in flight it is a plain STATUS write. That the pair is one input, and that
ERR and ERRCODE are cleared as usual, is the model's reading (log 15). -/
def Obligations.CompletionWinsOverClear : Prop :=
  ∀ (s : State) (w : Word) (rest : List Input), s.running → s.inputs = .statusWriteAtCompletion w :: rest →
    let cleared : State := { s with
      inputs := rest, resp := .written,
      done := if w.getLsbD 1 then false else s.done,
      err := if w.getLsbD 2 then false else s.err,
      errcode := if w.getLsbD 2 then 0 else s.errcode }
    (s.busy = false → step s = .next cleared) ∧
    ∀ L, s.inflight = some L →
      step s = exec L.op cleared ∧
      (s.ready L.op L → ∃ t, step s = .next t ∧ t.done = true ∧ t.busy = false ∧ t.inputs = rest ∧
        (w.getLsbD 2 = true → t.err = false ∧ t.errcode = 0) ∧
        (w.getLsbD 2 = false → t.err = s.err ∧ t.errcode = s.errcode))

/-- 10_state.md R39: the interrupt output is IE and (DONE or ERR), by the bits that CTRL and STATUS read. -/
def Obligations.InterruptFollowsReadableBits : Prop :=
  ∀ s : State, s.irq =
    ((readOffset s 0x004).getLsbD 0 && ((readOffset s 0x008).getLsbD 1 || (readOffset s 0x008).getLsbD 2))

/-- 70_reset_and_hazards.md R253, R254: a soft reset puts every register at its reset value and ends the command in
flight; each byte of its destination takes one free draw, and LMEM keeps every other byte. The order of the draws is
the model's own form (log 5). That the bytes of an in-place command, destination and source at once, are drawn is the
model's choice (log 25). -/
def Obligations.SoftResetAbandonsCommand : Prop :=
  ∀ (s : State) (w : Word) (rest : List Input), s.running →
    s.inputs = .csr (.write 4 0x004 w) :: rest → w.getLsbD 1 = true →
    ∃ t, step s = .next t ∧
      t = { s with inputs := rest, resp := .written, ie := false, done := false, err := false, errcode := 0,
                   regs := { cfg := { dsel := false, bsel := 2, pset := 0 }, src0 := 0, src1 := 0, dst := 0,
                             rows := 0, cols := 0, inner := 0, opa := 0, opb := 0 },
                   res := 0, inflight := none, lmem := t.lmem, draws := t.draws } ∧
      (∀ L r, s.inflight = some L → L.dest = some r → ∀ k < r.len,
        Memory.lookup t.lmem (r.base + k) = some (Config.freeByte (s.draws + k)) ∧
          s.draws + k < t.draws) ∧
      (∀ a, (∀ L r, s.inflight = some L → L.dest = some r → r.covers a = false) →
        Memory.lookup t.lmem a = Memory.lookup s.lmem a)

/-- 70_reset_and_hazards.md R250, R251, 10_state.md R42: when rst_n goes low, in any state out of reset and whatever comes
next, every register takes its reset value, no command is in flight, no access is stalled and every LMEM byte is
unspecified: LMEM lists no byte, the model's form of that (log 6). That this holds of an abandoned command's sources too,
which R254 calls unchanged, is the model's choice (log 24). While rst_n stays low nothing changes, and its release changes
nothing else; that its edges are inputs, and that one which leaves the level as it is changes nothing, is the model's
reading (logs 10 and 21). -/
def Obligations.HardwareResetFromAnyState : Prop :=
  ∀ (s : State) (rest : List Input),
    let held : State := { State.reset with
      inReset := true, inputs := rest, params := s.params, draws := s.draws,
      resp := if s.stalled.isSome then .busError else .none }
    (s.inReset = false → s.inputs = .resetAssert :: rest → step s = .next held ∧ held.atReset) ∧
    (s.inReset = true → s.inputs = .resetRelease :: rest →
      step s = .next { s with inReset := false, inputs := rest }) ∧
    (s.inReset = true → s.inputs = .resetAssert :: rest ∨ s.inputs = .engine :: rest →
      step s = .next { s with inputs := rest }) ∧
    (s.inReset = true → s.inputs = [] → step s = .next s) ∧
    (s.running → s.inputs = .resetRelease :: rest → step s = .next { s with inputs := rest }) ∧
    (s.inReset = false → s.inputs = .resetAssert :: .resetRelease :: rest →
      ∃ t u, step s = .next t ∧ t.inReset = true ∧ t.atReset ∧ step t = .next u ∧
        u = { State.reset with inputs := rest, params := s.params, draws := s.draws,
                               resp := if s.stalled.isSome then .busError else .none })

/-- 10_state.md R22, R42: what the registers read just out of reset. LMEM_SIZE and the tables are parameters (log 4):
their values are not part of this statement. -/
def Obligations.RegistersReadResetValues : Prop :=
  readOffset State.reset 0x000 = 0x464B0001 ∧ readOffset State.reset 0x004 = 0x00000000 ∧
  readOffset State.reset 0x008 = 0x00000000 ∧ readOffset State.reset 0x00C = 0x00000020 ∧
  (∀ offset ∈ [0x010, 0x014, 0x018, 0x01C, 0x020, 0x024, 0x028, 0x02C, 0x030, 0x034],
    readOffset State.reset offset = 0x00000000) ∧
  State.reset.busy = false ∧ State.reset.irq = false

/-! ### The invariant -/

/-- 10_state.md R42, 00_scope.md R9: the state after reset meets the invariant, with every legal LMEM_SIZE and every legal
frequency tables; and so does State.reset itself, whose LMEM_SIZE and tables are the model's choice (log 4). -/
def Obligations.ResetMeetsInvariant : Prop :=
  State.reset.Inv ∧
  ∀ p : Config.Params, p.wellFormed = true → ({ State.reset with params := p } : State).Inv

/-- Every step keeps the invariant: LMEM stays canonical and inside LMEM_SIZE, the command in flight has passed the
issue checks, ERRCODE is 0 exactly while ERR is 0 and never above 7, RES stays below 2^16, the parameters stay
legal, and while rst_n is low everything is at reset. -/
def Obligations.StepKeepsInvariant : Prop :=
  ∀ s t : State, s.Inv → step s = .next t → t.Inv

/-- 60_exceptions.md R224, "It cannot fail": in a state that meets the invariant the engine's turn gives a next state;
and the only stop of any step is the host's, while rst_n is low (70_reset_and_hazards.md R250; the named fault is
the model's choice, log 10). -/
def Obligations.CompletionCannotFail : Prop :=
  ∀ s : State, s.Inv →
    (∃ t, engineTurn s = .next t ∧ t.busy = false) ∧
    (∀ f, step s = .fault f → s.inReset = true ∧ f = .hostAccessInReset) ∧
    (∀ r, step s ≠ .refused r)

/-- The model's own choice (log 3, log 10): a completion whose latched command did not pass the issue checks stops
by name, and so does a host access while rst_n is low. -/
def Obligations.NamedStops : Prop :=
  (∀ (s : State) (L : Latched) (e : ErrCode), s.inflight = some L →
    issueCheck s.params.lmemSize L = some e → exec L.op s = .fault .completionUnchecked) ∧
  (∀ (s : State) (i : Input) (rest : List Input), s.inReset = true → s.inputs = i :: rest →
    (∃ a, i = .csr a) ∨ (∃ a, i = .lmem a) ∨ (∃ w, i = .statusWriteAtCompletion w) →
    step s = .fault .hostAccessInReset)
end

