-- ==== Sys2Proof/Laws/Memory.lean ====
section
/-! SUPPORT. The laws of LMEM: read after write, every write keeps the canonical form and the bounds, and what a
run of bytes or of elements stores. -/

namespace Sys2Proof.Machine

/-! ### One byte -/

@[simp] theorem Memory.lookup_nil (a : Nat) : Memory.lookup [] a = none := rfl

theorem Memory.lookup_set (m : Memory) (a x : Nat) (v : Byte) :
    Memory.lookup (Memory.set m a v) x = if x = a then some v else Memory.lookup m x := by
  induction m with
  | nil => simp [Memory.set, Memory.lookup, eq_comm]
  | cons c m ih =>
    obtain ⟨k, b⟩ := c
    simp only [Memory.set]
    split_ifs with h1 h2 <;> simp only [Memory.lookup, ih] <;> split_ifs <;> first | rfl | omega

/-- The first address of a canonical memory, with what follows it, bounds every other address. -/
theorem Memory.wf_cons {k : Nat} {b : Byte} {m : Memory} :
    Memory.wf ((k, b) :: m) = true ↔ (∀ c ∈ m, k < c.1) ∧ Memory.wf m = true := by
  induction m generalizing k b with
  | nil => simp [Memory.wf]
  | cons c m ih =>
    obtain ⟨k', b'⟩ := c
    simp only [Memory.wf, Bool.and_eq_true, decide_eq_true_eq, List.mem_cons, forall_eq_or_imp]
    rw [ih]
    constructor
    · rintro ⟨h, h1, h2⟩
      exact ⟨⟨h, fun c hc => h.trans (h1 c hc)⟩, h1, h2⟩
    · rintro ⟨⟨h, _⟩, h1, h2⟩
      exact ⟨h, h1, h2⟩

theorem Memory.mem_set {m : Memory} {a : Nat} {v : Byte} {c : Host.Cell} (h : c ∈ Memory.set m a v) :
    c = (a, v) ∨ c ∈ m := by
  induction m with
  | nil => simpa [Memory.set] using h
  | cons d m ih =>
    obtain ⟨k, b⟩ := d
    simp only [Memory.set] at h
    split_ifs at h with h1 h2
    · simpa using h
    · rcases List.mem_cons.1 h with h | h
      · exact .inl h
      · exact .inr (List.mem_cons_of_mem _ h)
    · rcases List.mem_cons.1 h with h | h
      · exact .inr (h ▸ List.mem_cons_self ..)
      · exact (ih h).imp_right (List.mem_cons_of_mem _)

theorem Memory.wf_set {m : Memory} (a : Nat) (v : Byte) (h : Memory.wf m = true) :
    Memory.wf (Memory.set m a v) = true := by
  induction m with
  | nil => rfl
  | cons c m ih =>
    obtain ⟨k, b⟩ := c
    obtain ⟨hk, hm⟩ := Memory.wf_cons.1 h
    simp only [Memory.set]
    split_ifs with h1 h2
    · refine Memory.wf_cons.2 ⟨?_, h⟩
      rintro c hc
      rcases List.mem_cons.1 hc with rfl | hc
      · exact h1
      · exact h1.trans (hk c hc)
    · subst h2
      exact Memory.wf_cons.2 ⟨hk, hm⟩
    · refine Memory.wf_cons.2 ⟨?_, ih hm⟩
      intro c hc
      rcases Memory.mem_set hc with rfl | hc
      · show k < a
        omega
      · exact hk c hc

theorem Memory.within_set {m : Memory} {size a : Nat} {v : Byte} (h : Memory.within size m = true)
    (ha : a < size) : Memory.within size (Memory.set m a v) = true := by
  simp only [Memory.within, List.all_eq_true, decide_eq_true_eq] at h ⊢
  intro c hc
  rcases Memory.mem_set hc with rfl | hc
  · exact ha
  · exact h c hc

/-! ### Runs of bytes -/

/-- A byte inside a written run is the byte written there; every other byte is as before. -/
theorem Memory.lookup_writeBytes (m : Memory) (a : Nat) (bs : List Byte) (x : Nat) :
    Memory.lookup (Memory.writeBytes m a bs) x =
      if a ≤ x ∧ x < a + bs.length then bs[x - a]? else Memory.lookup m x := by
  induction bs generalizing m a with
  | nil =>
    simp only [Memory.writeBytes, List.length_nil]
    split_ifs
    · omega
    · rfl
  | cons b bs ih =>
    simp only [Memory.writeBytes, ih, Memory.lookup_set, List.length_cons]
    by_cases hx : x = a
    · subst hx
      simp
    · by_cases h : a ≤ x ∧ x < a + (bs.length + 1)
      · have h' : a + 1 ≤ x ∧ x < a + 1 + bs.length := by omega
        have e : x - a = (x - (a + 1)) + 1 := by omega
        rw [if_pos h', if_pos h, e, List.getElem?_cons_succ]
      · have h' : ¬(a + 1 ≤ x ∧ x < a + 1 + bs.length) := by omega
        rw [if_neg h', if_neg hx, if_neg h]

theorem Memory.wf_writeBytes {m : Memory} (a : Nat) (bs : List Byte) (h : Memory.wf m = true) :
    Memory.wf (Memory.writeBytes m a bs) = true := by
  induction bs generalizing m a with
  | nil => exact h
  | cons b bs ih => exact ih _ (Memory.wf_set a b h)

theorem Memory.within_writeBytes {m : Memory} {size a : Nat} {bs : List Byte}
    (h : Memory.within size m = true) (ha : a + bs.length ≤ size) :
    Memory.within size (Memory.writeBytes m a bs) = true := by
  induction bs generalizing m a with
  | nil => exact h
  | cons b bs ih =>
    simp only [List.length_cons] at ha
    exact ih (Memory.within_set h (by omega)) (by omega)

/-- Two canonical memories that hold the same bytes are the same list. -/
theorem Memory.ext_lookup {m n : Memory} (hm : Memory.wf m = true) (hn : Memory.wf n = true)
    (h : ∀ a, Memory.lookup m a = Memory.lookup n a) : m = n := by
  have absent : ∀ {m : Memory} {k : Nat}, (∀ c ∈ m, k < c.1) → ∀ a ≤ k, Memory.lookup m a = none := by
    intro m
    induction m with
    | nil => intros; rfl
    | cons c m ih =>
      intro k hk a ha
      obtain ⟨j, b⟩ := c
      have hj : k < j := hk (j, b) (List.mem_cons_self ..)
      simp only [Memory.lookup]
      rw [if_neg (by omega)]
      exact ih (fun c hc => hk c (List.mem_cons_of_mem _ hc)) a ha
  induction m generalizing n with
  | nil =>
    cases n with
    | nil => rfl
    | cons c n => simpa [Memory.lookup] using h c.1
  | cons c m ih =>
    obtain ⟨k, b⟩ := c
    obtain ⟨hk, hm'⟩ := Memory.wf_cons.1 hm
    cases n with
    | nil => simpa [Memory.lookup] using h k
    | cons d n =>
      obtain ⟨j, e⟩ := d
      obtain ⟨hj, hn'⟩ := Memory.wf_cons.1 hn
      have kj : k = j := by
        rcases Nat.lt_trichotomy k j with lt | eq | lt
        · have := h k
          simp only [Memory.lookup, if_true] at this
          rw [if_neg (by omega), absent hj k (by omega)] at this
          cases this
        · exact eq
        · have := h j
          simp only [Memory.lookup, if_true] at this
          rw [if_neg (by omega), absent hk j (by omega)] at this
          cases this
      subst kj
      have hb := h k
      simp only [Memory.lookup, if_true, Option.some.injEq] at hb
      subst hb
      congr 1
      refine ih hm' hn' fun a => ?_
      by_cases ha : a ≤ k
      · rw [absent hk a ha, absent hj a ha]
      · have := h a
        simpa only [Memory.lookup, if_neg (show ¬k = a by omega)] using this

/-! ### Reading -/

theorem readByte_of_lookup {m : Memory} {d a : Nat} {b : Byte} (h : Memory.lookup m a = some b) :
    readByte m d a = b := by
  simp [readByte, h]

theorem readByte_of_unwritten {m : Memory} {d a : Nat} (h : Memory.lookup m a = none) :
    readByte m d a = Config.freeByte d := by
  simp [readByte, h]

/-- A written word reads as its value, whatever the draws. -/
theorem memRead_of_storedWord {m : Memory} {d a x : Nat} (h : storedWord m a = some x) :
    memRead m d a 2 = x := by
  unfold storedWord at h
  split at h
  · next b0 b1 h0 h1 =>
    simp only [Option.some.injEq] at h
    simp only [memRead, readByte_of_lookup h0, readByte_of_lookup h1]
    omega
  · cases h

theorem elemRead_of_storedElem {m : Memory} {d q a x : Nat} (h : storedElem m q a = some x) :
    elemRead m d q a = x := by
  simp only [storedElem, Option.map_eq_some_iff] at h
  obtain ⟨w, hw, rfl⟩ := h
  simp [elemRead, memRead_of_storedWord hw]

/-- A read is the sum of its bytes times 256^k (00_scope.md R13); byte k, if never written, is draw number d + k. -/
theorem memRead_eq_sum (m : Memory) (d a n : Nat) :
    memRead m d a n = ∑ k ∈ Finset.range n, (readByte m (d + k) (a + k)).toNat * 256 ^ k := by
  induction n generalizing d a with
  | zero => rfl
  | succ n ih =>
    rw [memRead, ih, Finset.sum_range_succ', Finset.mul_sum, Nat.add_comm]
    congr 1
    · refine Finset.sum_congr rfl fun k _ => ?_
      rw [show d + 1 + k = d + (k + 1) by omega, show a + 1 + k = a + (k + 1) by omega, Nat.pow_succ]
      ring
    · simp

/-- `n` bytes read little-endian are below 256^n. -/
theorem memRead_lt (m : Memory) (d a n : Nat) : memRead m d a n < 256 ^ n := by
  induction n generalizing d a with
  | zero => simp [memRead]
  | succ n ih =>
    have h1 := ih (d + 1) (a + 1)
    have h2 := (readByte m d a).isLt
    simp only [memRead, Nat.pow_succ]
    omega

/-- A read depends only on the bytes of its run. -/
theorem memRead_congr {m n : Memory} {d a k : Nat}
    (h : ∀ x, a ≤ x → x < a + k → Memory.lookup m x = Memory.lookup n x) :
    memRead m d a k = memRead n d a k := by
  induction k generalizing d a with
  | zero => rfl
  | succ k ih =>
    simp only [memRead, readByte, h a (Nat.le_refl _) (by omega)]
    rw [ih fun x h1 h2 => h x (by omega) (by omega)]

/-! ### Little-endian bytes and runs of elements -/

@[simp] theorem leBytes_length (n v : Nat) : (leBytes n v).length = n := by
  induction n generalizing v with
  | zero => rfl
  | succ n ih => simp [leBytes, ih]

/-- Byte `k` of a little-endian value (00_scope.md R13). -/
theorem leBytes_getElem? {n k : Nat} (v : Nat) (h : k < n) :
    (leBytes n v)[k]? = some (BitVec.ofNat 8 (v / 256 ^ k)) := by
  induction n generalizing v k with
  | zero => omega
  | succ n ih =>
    cases k with
    | zero => simp [leBytes]
    | succ k => simp [leBytes, ih _ (show k < n by omega), Nat.div_div_eq_div_mul, Nat.pow_succ, Nat.mul_comm]

theorem leBytes_two (v : Nat) : leBytes 2 v = [BitVec.ofNat 8 v, BitVec.ofNat 8 (v / 256)] := rfl

@[simp] theorem freeBytes_length (d n : Nat) : (freeBytes d n).length = n := by simp [freeBytes]

theorem flatMap_pairs_length (f : Nat → List Byte) (hf : ∀ k, (f k).length = 2) (n : Nat) :
    ((List.range n).flatMap f).length = 2 * n := by
  induction n with
  | zero => rfl
  | succ n ih => simp [List.range_succ, List.flatMap_append, ih, hf]; omega

theorem flatMap_pairs_get (f : Nat → List Byte) (hf : ∀ k, (f k).length = 2) {n k j : Nat} (hk : k < n)
    (hj : j < 2) : ((List.range n).flatMap f)[2 * k + j]? = (f k)[j]? := by
  induction n with
  | zero => omega
  | succ n ih =>
    rw [List.range_succ, List.flatMap_append]
    have hl := flatMap_pairs_length f hf n
    by_cases h : k < n
    · rw [List.getElem?_append_left (by omega), ih h]
    · have : k = n := by omega
      subst this
      rw [List.getElem?_append_right (by omega), hl]
      simp

@[simp] theorem elemBytes_length (q v : Nat) : (elemBytes q v).length = 2 := leBytes_length 2 _

@[simp] theorem elemsBytes_length (q : Nat) (f : Nat → Nat) (n : Nat) : (elemsBytes q f n).length = 2 * n :=
  flatMap_pairs_length _ (fun _ => elemBytes_length q _) n

/-- The word written at place `k` of a run of two-byte words reads back. -/
theorem storedWord_writePairs (m : Memory) (a : Nat) (f : Nat → Nat) {n k : Nat} (hk : k < n)
    (hf : f k < 2 ^ 16) :
    storedWord (Memory.writeBytes m a ((List.range n).flatMap fun k => leBytes 2 (f k))) (a + 2 * k) =
      some (f k) := by
  have hlen := flatMap_pairs_length (fun k => leBytes 2 (f k)) (fun _ => leBytes_length 2 _) n
  have g := fun j hj => flatMap_pairs_get (fun k => leBytes 2 (f k)) (fun _ => leBytes_length 2 _)
    (n := n) (k := k) (j := j) hk hj
  have h0 := g 0 (by omega)
  have h1 := g 1 (by omega)
  simp only [leBytes_two, List.getElem?_cons_zero, List.getElem?_cons_succ, Nat.add_zero] at h0 h1
  unfold storedWord
  rw [Memory.lookup_writeBytes, Memory.lookup_writeBytes, if_pos (by rw [hlen]; omega),
    if_pos (by rw [hlen]; omega)]
  have e0 : a + 2 * k - a = 2 * k := by omega
  have e1 : a + 2 * k + 1 - a = 2 * k + 1 := by omega
  simp only [leBytes_two, e0, e1, h0, h1, BitVec.toNat_ofNat, Option.some.injEq]
  omega

/-- The element written at place `k` of a run of elements reads back, reduced. -/
theorem storedWord_elemsBytes (m : Memory) (a q : Nat) (f : Nat → Nat) {n k : Nat} (hk : k < n)
    (hq : 0 < q ∧ q ≤ 2 ^ 16) :
    storedWord (Memory.writeBytes m a (elemsBytes q f n)) (a + 2 * k) = some (f k % q) :=
  storedWord_writePairs m a (fun k => f k % q) hk ((Nat.mod_lt _ hq.1).trans_le hq.2)

/-- The modulus is a power of two that fits an element word. -/
theorem Latched.q_pos_le (L : Latched) : 0 < L.q ∧ L.q ≤ 2 ^ 16 := by
  unfold Latched.q Latched.D
  split <;> omega

theorem Region.covers_iff (r : Region) (a : Nat) : r.covers a = true ↔ r.base ≤ a ∧ a < r.base + r.len := by
  simp [Region.covers]

theorem Region.covers_eq_false (r : Region) (a : Nat) :
    r.covers a = false ↔ ¬(r.base ≤ a ∧ a < r.base + r.len) := by
  rw [← Bool.not_eq_true, Region.covers_iff]

end Sys2Proof.Machine
end

