-- ==== Sys2Proof/Laws/State.lean ====
section
/-! SUPPORT. One lemma per field per named update of the state, each true by rfl, so that no later proof unfolds
a record update. -/

namespace Sys2Proof.Machine

/-! ### State.setRes -/

@[simp] theorem State.setRes_ie (s : State) (v : Nat) :
    (s.setRes v).ie = s.ie := rfl
@[simp] theorem State.setRes_done (s : State) (v : Nat) :
    (s.setRes v).done = s.done := rfl
@[simp] theorem State.setRes_err (s : State) (v : Nat) :
    (s.setRes v).err = s.err := rfl
@[simp] theorem State.setRes_errcode (s : State) (v : Nat) :
    (s.setRes v).errcode = s.errcode := rfl
@[simp] theorem State.setRes_regs (s : State) (v : Nat) :
    (s.setRes v).regs = s.regs := rfl
@[simp] theorem State.setRes_res (s : State) (v : Nat) :
    (s.setRes v).res = BitVec.ofNat 32 v := rfl
@[simp] theorem State.setRes_lmem (s : State) (v : Nat) :
    (s.setRes v).lmem = s.lmem := rfl
@[simp] theorem State.setRes_inflight (s : State) (v : Nat) :
    (s.setRes v).inflight = s.inflight := rfl
@[simp] theorem State.setRes_inReset (s : State) (v : Nat) :
    (s.setRes v).inReset = s.inReset := rfl
@[simp] theorem State.setRes_stalled (s : State) (v : Nat) :
    (s.setRes v).stalled = s.stalled := rfl
@[simp] theorem State.setRes_resp (s : State) (v : Nat) :
    (s.setRes v).resp = s.resp := rfl
@[simp] theorem State.setRes_inputs (s : State) (v : Nat) :
    (s.setRes v).inputs = s.inputs := rfl
@[simp] theorem State.setRes_draws (s : State) (v : Nat) :
    (s.setRes v).draws = s.draws := rfl
@[simp] theorem State.setRes_params (s : State) (v : Nat) :
    (s.setRes v).params = s.params := rfl

/-! ### State.countReads -/

@[simp] theorem State.countReads_ie (s : State) (n : Nat) :
    (s.countReads n).ie = s.ie := rfl
@[simp] theorem State.countReads_done (s : State) (n : Nat) :
    (s.countReads n).done = s.done := rfl
@[simp] theorem State.countReads_err (s : State) (n : Nat) :
    (s.countReads n).err = s.err := rfl
@[simp] theorem State.countReads_errcode (s : State) (n : Nat) :
    (s.countReads n).errcode = s.errcode := rfl
@[simp] theorem State.countReads_regs (s : State) (n : Nat) :
    (s.countReads n).regs = s.regs := rfl
@[simp] theorem State.countReads_res (s : State) (n : Nat) :
    (s.countReads n).res = s.res := rfl
@[simp] theorem State.countReads_lmem (s : State) (n : Nat) :
    (s.countReads n).lmem = s.lmem := rfl
@[simp] theorem State.countReads_inflight (s : State) (n : Nat) :
    (s.countReads n).inflight = s.inflight := rfl
@[simp] theorem State.countReads_inReset (s : State) (n : Nat) :
    (s.countReads n).inReset = s.inReset := rfl
@[simp] theorem State.countReads_stalled (s : State) (n : Nat) :
    (s.countReads n).stalled = s.stalled := rfl
@[simp] theorem State.countReads_resp (s : State) (n : Nat) :
    (s.countReads n).resp = s.resp := rfl
@[simp] theorem State.countReads_inputs (s : State) (n : Nat) :
    (s.countReads n).inputs = s.inputs := rfl
@[simp] theorem State.countReads_draws (s : State) (n : Nat) :
    (s.countReads n).draws = s.draws + n := rfl
@[simp] theorem State.countReads_params (s : State) (n : Nat) :
    (s.countReads n).params = s.params := rfl

/-! ### State.storeBytes -/

@[simp] theorem State.storeBytes_ie (s : State) (a : Nat) (bs : List Byte) :
    (s.storeBytes a bs).ie = s.ie := rfl
@[simp] theorem State.storeBytes_done (s : State) (a : Nat) (bs : List Byte) :
    (s.storeBytes a bs).done = s.done := rfl
@[simp] theorem State.storeBytes_err (s : State) (a : Nat) (bs : List Byte) :
    (s.storeBytes a bs).err = s.err := rfl
@[simp] theorem State.storeBytes_errcode (s : State) (a : Nat) (bs : List Byte) :
    (s.storeBytes a bs).errcode = s.errcode := rfl
@[simp] theorem State.storeBytes_regs (s : State) (a : Nat) (bs : List Byte) :
    (s.storeBytes a bs).regs = s.regs := rfl
@[simp] theorem State.storeBytes_res (s : State) (a : Nat) (bs : List Byte) :
    (s.storeBytes a bs).res = s.res := rfl
@[simp] theorem State.storeBytes_lmem (s : State) (a : Nat) (bs : List Byte) :
    (s.storeBytes a bs).lmem = Memory.writeBytes s.lmem a bs := rfl
@[simp] theorem State.storeBytes_inflight (s : State) (a : Nat) (bs : List Byte) :
    (s.storeBytes a bs).inflight = s.inflight := rfl
@[simp] theorem State.storeBytes_inReset (s : State) (a : Nat) (bs : List Byte) :
    (s.storeBytes a bs).inReset = s.inReset := rfl
@[simp] theorem State.storeBytes_stalled (s : State) (a : Nat) (bs : List Byte) :
    (s.storeBytes a bs).stalled = s.stalled := rfl
@[simp] theorem State.storeBytes_resp (s : State) (a : Nat) (bs : List Byte) :
    (s.storeBytes a bs).resp = s.resp := rfl
@[simp] theorem State.storeBytes_inputs (s : State) (a : Nat) (bs : List Byte) :
    (s.storeBytes a bs).inputs = s.inputs := rfl
@[simp] theorem State.storeBytes_draws (s : State) (a : Nat) (bs : List Byte) :
    (s.storeBytes a bs).draws = s.draws := rfl
@[simp] theorem State.storeBytes_params (s : State) (a : Nat) (bs : List Byte) :
    (s.storeBytes a bs).params = s.params := rfl

/-! ### State.finish -/

@[simp] theorem State.finish_ie (s : State) :
    (s.finish).ie = s.ie := rfl
@[simp] theorem State.finish_done (s : State) :
    (s.finish).done = true := rfl
@[simp] theorem State.finish_err (s : State) :
    (s.finish).err = s.err := rfl
@[simp] theorem State.finish_errcode (s : State) :
    (s.finish).errcode = s.errcode := rfl
@[simp] theorem State.finish_regs (s : State) :
    (s.finish).regs = s.regs := rfl
@[simp] theorem State.finish_res (s : State) :
    (s.finish).res = s.res := rfl
@[simp] theorem State.finish_lmem (s : State) :
    (s.finish).lmem = s.lmem := rfl
@[simp] theorem State.finish_inflight (s : State) :
    (s.finish).inflight = none := rfl
@[simp] theorem State.finish_inReset (s : State) :
    (s.finish).inReset = s.inReset := rfl
@[simp] theorem State.finish_stalled (s : State) :
    (s.finish).stalled = s.stalled := rfl
@[simp] theorem State.finish_resp (s : State) :
    (s.finish).resp = s.resp := rfl
@[simp] theorem State.finish_inputs (s : State) :
    (s.finish).inputs = s.inputs := rfl
@[simp] theorem State.finish_draws (s : State) :
    (s.finish).draws = s.draws := rfl
@[simp] theorem State.finish_params (s : State) :
    (s.finish).params = s.params := rfl

/-! ### State.raiseError -/

@[simp] theorem State.raiseError_ie (s : State) (e : ErrCode) :
    (s.raiseError e).ie = s.ie := rfl
@[simp] theorem State.raiseError_done (s : State) (e : ErrCode) :
    (s.raiseError e).done = s.done := rfl
@[simp] theorem State.raiseError_err (s : State) (e : ErrCode) :
    (s.raiseError e).err = true := rfl
@[simp] theorem State.raiseError_errcode (s : State) (e : ErrCode) :
    (s.raiseError e).errcode = if s.err then s.errcode else e.code := rfl
@[simp] theorem State.raiseError_regs (s : State) (e : ErrCode) :
    (s.raiseError e).regs = s.regs := rfl
@[simp] theorem State.raiseError_res (s : State) (e : ErrCode) :
    (s.raiseError e).res = s.res := rfl
@[simp] theorem State.raiseError_lmem (s : State) (e : ErrCode) :
    (s.raiseError e).lmem = s.lmem := rfl
@[simp] theorem State.raiseError_inflight (s : State) (e : ErrCode) :
    (s.raiseError e).inflight = s.inflight := rfl
@[simp] theorem State.raiseError_inReset (s : State) (e : ErrCode) :
    (s.raiseError e).inReset = s.inReset := rfl
@[simp] theorem State.raiseError_stalled (s : State) (e : ErrCode) :
    (s.raiseError e).stalled = s.stalled := rfl
@[simp] theorem State.raiseError_resp (s : State) (e : ErrCode) :
    (s.raiseError e).resp = s.resp := rfl
@[simp] theorem State.raiseError_inputs (s : State) (e : ErrCode) :
    (s.raiseError e).inputs = s.inputs := rfl
@[simp] theorem State.raiseError_draws (s : State) (e : ErrCode) :
    (s.raiseError e).draws = s.draws := rfl
@[simp] theorem State.raiseError_params (s : State) (e : ErrCode) :
    (s.raiseError e).params = s.params := rfl

/-! ### State.clearStatus -/

@[simp] theorem State.clearStatus_ie (s : State) (w : Word) :
    (s.clearStatus w).ie = s.ie := rfl
@[simp] theorem State.clearStatus_done (s : State) (w : Word) :
    (s.clearStatus w).done = (s.done && !w.getLsbD 1) := rfl
@[simp] theorem State.clearStatus_err (s : State) (w : Word) :
    (s.clearStatus w).err = (s.err && !w.getLsbD 2) := rfl
@[simp] theorem State.clearStatus_errcode (s : State) (w : Word) :
    (s.clearStatus w).errcode = if w.getLsbD 2 then 0 else s.errcode := rfl
@[simp] theorem State.clearStatus_regs (s : State) (w : Word) :
    (s.clearStatus w).regs = s.regs := rfl
@[simp] theorem State.clearStatus_res (s : State) (w : Word) :
    (s.clearStatus w).res = s.res := rfl
@[simp] theorem State.clearStatus_lmem (s : State) (w : Word) :
    (s.clearStatus w).lmem = s.lmem := rfl
@[simp] theorem State.clearStatus_inflight (s : State) (w : Word) :
    (s.clearStatus w).inflight = s.inflight := rfl
@[simp] theorem State.clearStatus_inReset (s : State) (w : Word) :
    (s.clearStatus w).inReset = s.inReset := rfl
@[simp] theorem State.clearStatus_stalled (s : State) (w : Word) :
    (s.clearStatus w).stalled = s.stalled := rfl
@[simp] theorem State.clearStatus_resp (s : State) (w : Word) :
    (s.clearStatus w).resp = s.resp := rfl
@[simp] theorem State.clearStatus_inputs (s : State) (w : Word) :
    (s.clearStatus w).inputs = s.inputs := rfl
@[simp] theorem State.clearStatus_draws (s : State) (w : Word) :
    (s.clearStatus w).draws = s.draws := rfl
@[simp] theorem State.clearStatus_params (s : State) (w : Word) :
    (s.clearStatus w).params = s.params := rfl

/-! ### State.answer -/

@[simp] theorem State.answer_ie (s : State) (r : Response) :
    (s.answer r).ie = s.ie := rfl
@[simp] theorem State.answer_done (s : State) (r : Response) :
    (s.answer r).done = s.done := rfl
@[simp] theorem State.answer_err (s : State) (r : Response) :
    (s.answer r).err = s.err := rfl
@[simp] theorem State.answer_errcode (s : State) (r : Response) :
    (s.answer r).errcode = s.errcode := rfl
@[simp] theorem State.answer_regs (s : State) (r : Response) :
    (s.answer r).regs = s.regs := rfl
@[simp] theorem State.answer_res (s : State) (r : Response) :
    (s.answer r).res = s.res := rfl
@[simp] theorem State.answer_lmem (s : State) (r : Response) :
    (s.answer r).lmem = s.lmem := rfl
@[simp] theorem State.answer_inflight (s : State) (r : Response) :
    (s.answer r).inflight = s.inflight := rfl
@[simp] theorem State.answer_inReset (s : State) (r : Response) :
    (s.answer r).inReset = s.inReset := rfl
@[simp] theorem State.answer_stalled (s : State) (r : Response) :
    (s.answer r).stalled = s.stalled := rfl
@[simp] theorem State.answer_resp (s : State) (r : Response) :
    (s.answer r).resp = r := rfl
@[simp] theorem State.answer_inputs (s : State) (r : Response) :
    (s.answer r).inputs = s.inputs := rfl
@[simp] theorem State.answer_draws (s : State) (r : Response) :
    (s.answer r).draws = s.draws := rfl
@[simp] theorem State.answer_params (s : State) (r : Response) :
    (s.answer r).params = s.params := rfl

/-! ### State.resetRegisters -/

@[simp] theorem State.resetRegisters_ie (s : State) :
    (s.resetRegisters).ie = false := rfl
@[simp] theorem State.resetRegisters_done (s : State) :
    (s.resetRegisters).done = false := rfl
@[simp] theorem State.resetRegisters_err (s : State) :
    (s.resetRegisters).err = false := rfl
@[simp] theorem State.resetRegisters_errcode (s : State) :
    (s.resetRegisters).errcode = 0 := rfl
@[simp] theorem State.resetRegisters_regs (s : State) :
    (s.resetRegisters).regs = OpRegs.reset := rfl
@[simp] theorem State.resetRegisters_res (s : State) :
    (s.resetRegisters).res = 0 := rfl
@[simp] theorem State.resetRegisters_lmem (s : State) :
    (s.resetRegisters).lmem = s.lmem := rfl
@[simp] theorem State.resetRegisters_inflight (s : State) :
    (s.resetRegisters).inflight = none := rfl
@[simp] theorem State.resetRegisters_inReset (s : State) :
    (s.resetRegisters).inReset = s.inReset := rfl
@[simp] theorem State.resetRegisters_stalled (s : State) :
    (s.resetRegisters).stalled = s.stalled := rfl
@[simp] theorem State.resetRegisters_resp (s : State) :
    (s.resetRegisters).resp = s.resp := rfl
@[simp] theorem State.resetRegisters_inputs (s : State) :
    (s.resetRegisters).inputs = s.inputs := rfl
@[simp] theorem State.resetRegisters_draws (s : State) :
    (s.resetRegisters).draws = s.draws := rfl
@[simp] theorem State.resetRegisters_params (s : State) :
    (s.resetRegisters).params = s.params := rfl

/-! ### State.abandon -/

@[simp] theorem State.abandon_ie (s : State) :
    (s.abandon).ie = s.ie := rfl
@[simp] theorem State.abandon_done (s : State) :
    (s.abandon).done = s.done := rfl
@[simp] theorem State.abandon_err (s : State) :
    (s.abandon).err = s.err := rfl
@[simp] theorem State.abandon_errcode (s : State) :
    (s.abandon).errcode = s.errcode := rfl
@[simp] theorem State.abandon_regs (s : State) :
    (s.abandon).regs = s.regs := rfl
@[simp] theorem State.abandon_res (s : State) :
    (s.abandon).res = s.res := rfl
@[simp] theorem State.abandon_lmem (s : State) :
    (s.abandon).lmem = Memory.writeBytes s.lmem s.abandonedRegion.base (freeBytes s.draws s.abandonedRegion.len) := rfl
@[simp] theorem State.abandon_inflight (s : State) :
    (s.abandon).inflight = s.inflight := rfl
@[simp] theorem State.abandon_inReset (s : State) :
    (s.abandon).inReset = s.inReset := rfl
@[simp] theorem State.abandon_stalled (s : State) :
    (s.abandon).stalled = s.stalled := rfl
@[simp] theorem State.abandon_resp (s : State) :
    (s.abandon).resp = s.resp := rfl
@[simp] theorem State.abandon_inputs (s : State) :
    (s.abandon).inputs = s.inputs := rfl
@[simp] theorem State.abandon_draws (s : State) :
    (s.abandon).draws = s.draws + s.abandonedRegion.len := rfl
@[simp] theorem State.abandon_params (s : State) :
    (s.abandon).params = s.params := rfl

/-! ### State.softReset -/

@[simp] theorem State.softReset_ie (s : State) :
    (s.softReset).ie = false := rfl
@[simp] theorem State.softReset_done (s : State) :
    (s.softReset).done = false := rfl
@[simp] theorem State.softReset_err (s : State) :
    (s.softReset).err = false := rfl
@[simp] theorem State.softReset_errcode (s : State) :
    (s.softReset).errcode = 0 := rfl
@[simp] theorem State.softReset_regs (s : State) :
    (s.softReset).regs = OpRegs.reset := rfl
@[simp] theorem State.softReset_res (s : State) :
    (s.softReset).res = 0 := rfl
@[simp] theorem State.softReset_lmem (s : State) :
    (s.softReset).lmem = Memory.writeBytes s.lmem s.abandonedRegion.base (freeBytes s.draws s.abandonedRegion.len) := rfl
@[simp] theorem State.softReset_inflight (s : State) :
    (s.softReset).inflight = none := rfl
@[simp] theorem State.softReset_inReset (s : State) :
    (s.softReset).inReset = s.inReset := rfl
@[simp] theorem State.softReset_stalled (s : State) :
    (s.softReset).stalled = s.stalled := rfl
@[simp] theorem State.softReset_resp (s : State) :
    (s.softReset).resp = s.resp := rfl
@[simp] theorem State.softReset_inputs (s : State) :
    (s.softReset).inputs = s.inputs := rfl
@[simp] theorem State.softReset_draws (s : State) :
    (s.softReset).draws = s.draws + s.abandonedRegion.len := rfl
@[simp] theorem State.softReset_params (s : State) :
    (s.softReset).params = s.params := rfl

/-! ### State.hardReset -/

@[simp] theorem State.hardReset_ie (s : State) :
    (s.hardReset).ie = false := rfl
@[simp] theorem State.hardReset_done (s : State) :
    (s.hardReset).done = false := rfl
@[simp] theorem State.hardReset_err (s : State) :
    (s.hardReset).err = false := rfl
@[simp] theorem State.hardReset_errcode (s : State) :
    (s.hardReset).errcode = 0 := rfl
@[simp] theorem State.hardReset_regs (s : State) :
    (s.hardReset).regs = OpRegs.reset := rfl
@[simp] theorem State.hardReset_res (s : State) :
    (s.hardReset).res = 0 := rfl
@[simp] theorem State.hardReset_lmem (s : State) :
    (s.hardReset).lmem = [] := rfl
@[simp] theorem State.hardReset_inflight (s : State) :
    (s.hardReset).inflight = none := rfl
@[simp] theorem State.hardReset_inReset (s : State) :
    (s.hardReset).inReset = true := rfl
@[simp] theorem State.hardReset_stalled (s : State) :
    (s.hardReset).stalled = none := rfl
@[simp] theorem State.hardReset_resp (s : State) :
    (s.hardReset).resp = if s.stalled.isSome then .busError else .none := rfl
@[simp] theorem State.hardReset_inputs (s : State) :
    (s.hardReset).inputs = s.inputs := rfl
@[simp] theorem State.hardReset_draws (s : State) :
    (s.hardReset).draws = s.draws := rfl
@[simp] theorem State.hardReset_params (s : State) :
    (s.hardReset).params = s.params := rfl

/-! ### storeElems -/

@[simp] theorem storeElems_ie (L : Latched) (n r : Nat) (f : Nat → Nat) (s : State) :
    (storeElems L n r f s).ie = s.ie := rfl
@[simp] theorem storeElems_done (L : Latched) (n r : Nat) (f : Nat → Nat) (s : State) :
    (storeElems L n r f s).done = s.done := rfl
@[simp] theorem storeElems_err (L : Latched) (n r : Nat) (f : Nat → Nat) (s : State) :
    (storeElems L n r f s).err = s.err := rfl
@[simp] theorem storeElems_errcode (L : Latched) (n r : Nat) (f : Nat → Nat) (s : State) :
    (storeElems L n r f s).errcode = s.errcode := rfl
@[simp] theorem storeElems_regs (L : Latched) (n r : Nat) (f : Nat → Nat) (s : State) :
    (storeElems L n r f s).regs = s.regs := rfl
@[simp] theorem storeElems_res (L : Latched) (n r : Nat) (f : Nat → Nat) (s : State) :
    (storeElems L n r f s).res = s.res := rfl
@[simp] theorem storeElems_lmem (L : Latched) (n r : Nat) (f : Nat → Nat) (s : State) :
    (storeElems L n r f s).lmem = Memory.writeBytes s.lmem L.dst (elemsBytes L.q f n) := rfl
@[simp] theorem storeElems_inflight (L : Latched) (n r : Nat) (f : Nat → Nat) (s : State) :
    (storeElems L n r f s).inflight = s.inflight := rfl
@[simp] theorem storeElems_inReset (L : Latched) (n r : Nat) (f : Nat → Nat) (s : State) :
    (storeElems L n r f s).inReset = s.inReset := rfl
@[simp] theorem storeElems_stalled (L : Latched) (n r : Nat) (f : Nat → Nat) (s : State) :
    (storeElems L n r f s).stalled = s.stalled := rfl
@[simp] theorem storeElems_resp (L : Latched) (n r : Nat) (f : Nat → Nat) (s : State) :
    (storeElems L n r f s).resp = s.resp := rfl
@[simp] theorem storeElems_inputs (L : Latched) (n r : Nat) (f : Nat → Nat) (s : State) :
    (storeElems L n r f s).inputs = s.inputs := rfl
@[simp] theorem storeElems_draws (L : Latched) (n r : Nat) (f : Nat → Nat) (s : State) :
    (storeElems L n r f s).draws = s.draws + r := rfl
@[simp] theorem storeElems_params (L : Latched) (n r : Nat) (f : Nat → Nat) (s : State) :
    (storeElems L n r f s).params = s.params := rfl

/-! ### storeByteRun -/

@[simp] theorem storeByteRun_ie (L : Latched) (n r : Nat) (f : Nat → Nat) (s : State) :
    (storeByteRun L n r f s).ie = s.ie := rfl
@[simp] theorem storeByteRun_done (L : Latched) (n r : Nat) (f : Nat → Nat) (s : State) :
    (storeByteRun L n r f s).done = s.done := rfl
@[simp] theorem storeByteRun_err (L : Latched) (n r : Nat) (f : Nat → Nat) (s : State) :
    (storeByteRun L n r f s).err = s.err := rfl
@[simp] theorem storeByteRun_errcode (L : Latched) (n r : Nat) (f : Nat → Nat) (s : State) :
    (storeByteRun L n r f s).errcode = s.errcode := rfl
@[simp] theorem storeByteRun_regs (L : Latched) (n r : Nat) (f : Nat → Nat) (s : State) :
    (storeByteRun L n r f s).regs = s.regs := rfl
@[simp] theorem storeByteRun_res (L : Latched) (n r : Nat) (f : Nat → Nat) (s : State) :
    (storeByteRun L n r f s).res = s.res := rfl
@[simp] theorem storeByteRun_lmem (L : Latched) (n r : Nat) (f : Nat → Nat) (s : State) :
    (storeByteRun L n r f s).lmem = Memory.writeBytes s.lmem L.dst ((List.range n).map (fun j => BitVec.ofNat 8 (f j))) := rfl
@[simp] theorem storeByteRun_inflight (L : Latched) (n r : Nat) (f : Nat → Nat) (s : State) :
    (storeByteRun L n r f s).inflight = s.inflight := rfl
@[simp] theorem storeByteRun_inReset (L : Latched) (n r : Nat) (f : Nat → Nat) (s : State) :
    (storeByteRun L n r f s).inReset = s.inReset := rfl
@[simp] theorem storeByteRun_stalled (L : Latched) (n r : Nat) (f : Nat → Nat) (s : State) :
    (storeByteRun L n r f s).stalled = s.stalled := rfl
@[simp] theorem storeByteRun_resp (L : Latched) (n r : Nat) (f : Nat → Nat) (s : State) :
    (storeByteRun L n r f s).resp = s.resp := rfl
@[simp] theorem storeByteRun_inputs (L : Latched) (n r : Nat) (f : Nat → Nat) (s : State) :
    (storeByteRun L n r f s).inputs = s.inputs := rfl
@[simp] theorem storeByteRun_draws (L : Latched) (n r : Nat) (f : Nat → Nat) (s : State) :
    (storeByteRun L n r f s).draws = s.draws + r := rfl
@[simp] theorem storeByteRun_params (L : Latched) (n r : Nat) (f : Nat → Nat) (s : State) :
    (storeByteRun L n r f s).params = s.params := rfl

end Sys2Proof.Machine
end

