-- ==== Sys2Proof/Laws/LifeCycle.lean ====
section
/-! SUPPORT. What a command and a step can do, said once: the completion effect of each command, the cases of
`exec`, of `issue` and of `step`. -/

namespace Sys2Proof.Machine

/-! ### The completion effects -/

/-- The completion pseudocode of each command, as its meaning gives it to `runCommand`. -/
def effectOf : Instr → Latched → State → State
  | .nop => nopEffect
  | .eRed => eRedEffect
  | .eAdd => eAddEffect
  | .eSub => eSubEffect
  | .eNeg => eNegEffect
  | .eMul => eMulEffect
  | .eEnc => eEncEffect
  | .eDec => eDecEffect
  | .eEq => eEqEffect
  | .eCteq => eCteqEffect
  | .mAdd => mAddEffect
  | .mSub => mSubEffect
  | .mMul => mMulEffect
  | .mTranspose => mTransposeEffect
  | .mEq => mEqEffect
  | .mCteq => mCteqEffect
  | .sSample => sSampleEffect
  | .sSampleMat => sSampleMatEffect
  | .cEncode => cEncodeEffect
  | .cDecode => cDecodeEffect
  | .cPack => cPackEffect
  | .cUnpack => cUnpackEffect
  | .cStoreLe => cStoreLeEffect
  | .cLoadLe => cLoadLeEffect

theorem exec_eq_runCommand (i : Instr) (s : State) : exec i s = runCommand i (effectOf i) s := by
  cases i <;> rfl

/-- A ready command completes with its effect. -/
theorem exec_of_ready {i : Instr} {s : State} {L : Latched} (h : s.ready i L) :
    exec i s = .next (effectOf i L s).finish := by
  obtain ⟨h1, h2, h3⟩ := h
  simp [exec_eq_runCommand, runCommand, h1, h2, h3]

/-- With nothing in flight a command is issued. -/
theorem exec_of_idle {s : State} (i : Instr) (h : s.inflight = none) : exec i s = .next (s.issue i) := by
  simp [exec_eq_runCommand, runCommand, h]

/-- Every way a command can give a next state. -/
theorem exec_next_cases {i : Instr} {s t : State} (h : exec i s = .next t) :
    (s.inflight = none ∧ t = s.issue i) ∨
    (∃ L, s.ready i L ∧ t = (effectOf i L s).finish) ∨
    (∃ L, s.inflight = some L ∧ L.op ≠ i ∧ t = s.raiseError .busy) := by
  rw [exec_eq_runCommand] at h
  unfold runCommand at h
  split at h
  · next h0 => exact .inl ⟨h0, by simpa [eq_comm] using h⟩
  · next L h0 =>
    split at h
    · next h1 =>
      split at h
      · next h2 => exact .inr (.inl ⟨L, ⟨h0, h1, h2⟩, by simpa [eq_comm] using h⟩)
      · cases h
    · next h1 => exact .inr (.inr ⟨L, h0, h1, by simpa [eq_comm] using h⟩)

/-- The only way a command can stop. -/
theorem exec_fault_cases {i : Instr} {s : State} {f : Fault} (h : exec i s = .fault f) :
    f = .completionUnchecked ∧
      ∃ L e, s.inflight = some L ∧ L.op = i ∧ issueCheck s.params.lmemSize L = some e := by
  rw [exec_eq_runCommand] at h
  unfold runCommand at h
  split at h
  · cases h
  · next L h0 =>
    split at h
    · next h1 =>
      split at h
      · cases h
      · next e h2 => exact ⟨by simpa [eq_comm] using h, L, e, h0, h1, h2⟩
    · cases h

/-- No command is refused. -/
theorem exec_ne_refused (i : Instr) (s : State) (r : Refusal) : exec i s ≠ .refused r := by
  intro h
  rw [exec_eq_runCommand] at h
  unfold runCommand at h
  repeat' split at h
  all_goals cases h

/-- The two ways an issue ends. -/
theorem issue_cases (s : State) (i : Instr) :
    (∃ e, issueCheck s.params.lmemSize (s.snapshot i) = some e ∧ s.issue i = s.raiseError e) ∨
    (issueCheck s.params.lmemSize (s.snapshot i) = none ∧
      s.issue i = { s with inflight := some (s.snapshot i) }) := by
  unfold State.issue
  cases h : issueCheck s.params.lmemSize (s.snapshot i) with
  | none => exact .inr ⟨rfl, rfl⟩
  | some e => exact .inl ⟨e, rfl, rfl⟩

/-- An effect changes RES, LMEM and the count of draws only. -/
theorem effectOf_frame (i : Instr) (L : Latched) (s : State) :
    effectOf i L s = { s with res := (effectOf i L s).res, lmem := (effectOf i L s).lmem,
                              draws := (effectOf i L s).draws } := by
  cases i <;> rfl

/-- How many bytes a completion reads, each with a draw of its own if it was never written (20_memory.md R79). -/
def Latched.reads (L : Latched) : Nat :=
  match L.op with
  | .nop | .eRed | .eAdd | .eSub | .eNeg | .eMul | .eEnc | .eDec | .eEq | .eCteq | .sSample => 0
  | .mAdd | .mSub | .mEq | .mCteq => 4 * L.N
  | .mMul => 4 * (L.N * L.K)
  | .mTranspose | .sSampleMat | .cDecode | .cPack | .cStoreLe | .cLoadLe => 2 * L.N
  | .cEncode => L.messageLen
  | .cUnpack => L.packedLen

/-- A completion counts its byte reads. -/
theorem effectOf_draws {i : Instr} {L : Latched} (s : State) (hi : L.op = i) :
    (effectOf i L s).draws = s.draws + L.reads := by
  subst hi
  cases h : L.op <;> simp only [Latched.reads, h] <;> rfl

/-- A command that does not write RES keeps it. -/
theorem effectOf_res {i : Instr} (L : Latched) (s : State) (h : writesRes i = false) :
    (effectOf i L s).res = s.res := by
  cases i <;> first | rfl | cases h

/-- The bytes an effect writes form one run at L.DST, exactly the destination region. -/
theorem effectOf_lmem (i : Instr) (L : Latched) (s : State) (hi : L.op = i) :
    (L.dest = none ∧ (effectOf i L s).lmem = s.lmem) ∨
    (∃ r bs, L.dest = some r ∧ bs.length = r.len ∧
      (effectOf i L s).lmem = Memory.writeBytes s.lmem r.base bs) := by
  subst hi
  cases h : L.op <;> simp only [Latched.dest, h]
  case nop => exact .inl ⟨trivial, rfl⟩
  case eRed => exact .inl ⟨trivial, rfl⟩
  case eAdd => exact .inl ⟨trivial, rfl⟩
  case eSub => exact .inl ⟨trivial, rfl⟩
  case eNeg => exact .inl ⟨trivial, rfl⟩
  case eMul => exact .inl ⟨trivial, rfl⟩
  case eEnc => exact .inl ⟨trivial, rfl⟩
  case eDec => exact .inl ⟨trivial, rfl⟩
  case eEq => exact .inl ⟨trivial, rfl⟩
  case eCteq => exact .inl ⟨trivial, rfl⟩
  case mEq => exact .inl ⟨trivial, rfl⟩
  case mCteq => exact .inl ⟨trivial, rfl⟩
  case sSample => exact .inl ⟨trivial, rfl⟩
  all_goals
    refine .inr ⟨_, _, rfl, ?_, rfl⟩
    first | simp [elemRegion, byteRegion]; done | exact flatMap_pairs_length _ (fun _ => leBytes_length 2 _) _

/-! ### The passed checks -/

/-- What a passed issue check says (60_exceptions.md R221). -/
theorem issueCheck_eq_none {size : Nat} {L : Latched} :
    issueCheck size L = none ↔ L.cfgBad = false ∧ L.dimBad = false ∧ L.misaligned = false ∧
      L.outOfRange size = false ∧ L.overlapBad = false := by
  unfold issueCheck
  repeat' split
  all_goals simp_all

/-- A destination that passed the checks lies inside LMEM. -/
theorem dest_inside {size : Nat} {L : Latched} {r : Region} (h : issueCheck size L = none)
    (hr : L.dest = some r) : r.base + r.len ≤ size := by
  have := (issueCheck_eq_none.1 h).2.2.2.1
  simp only [Latched.outOfRange, List.any_eq_false, Latched.regions, List.mem_append, hr,
    Option.toList_some, List.mem_singleton, Bool.not_eq_true', Bool.not_eq_false,
    Region.inside, decide_eq_true_eq] at this
  exact this r (.inr rfl)

/-- A source that passed the checks lies inside LMEM. -/
theorem source_inside {size : Nat} {L : Latched} {r : Region} (h : issueCheck size L = none)
    (hr : r ∈ L.sources) : r.base + r.len ≤ size := by
  have := (issueCheck_eq_none.1 h).2.2.2.1
  simp only [Latched.outOfRange, List.any_eq_false, Latched.regions, List.mem_append,
    Bool.not_eq_true', Bool.not_eq_false, Region.inside, decide_eq_true_eq] at this
  exact this r (.inl hr)

/-- A completion reads every byte of its sources at least once. -/
theorem sources_le_reads {size : Nat} {L : Latched} (h : issueCheck size L = none) :
    (L.sources.map (·.len)).sum ≤ L.reads := by
  have hd := (issueCheck_eq_none.1 h).2.1
  cases ho : L.op <;> simp only [Latched.sources, Latched.reads, ho] <;> simp [elemRegion, byteRegion]
  case mMul =>
    simp only [Latched.dimBad, Latched.dims, ho, needsGroupsOf8, Bool.false_and, Bool.or_false,
      List.any_eq_false, List.mem_cons, List.not_mem_nil, or_false, forall_eq_or_imp, forall_eq, beq_iff_eq] at hd
    obtain ⟨hR, hC, _⟩ := hd
    have h1 : L.R * L.K ≤ L.N * L.K := Nat.mul_le_mul_right _ (Nat.le_mul_of_pos_right _ (by omega))
    have h2 : L.K * L.C ≤ L.N * L.K := by
      rw [Nat.mul_comm]
      exact Nat.mul_le_mul_right _ (Nat.le_mul_of_pos_left _ (by omega))
    omega
  all_goals omega

/-! ### The resets -/

/-- Outside the abandoned destination the soft reset keeps every byte. -/
theorem softReset_lookup {s : State} {a : Nat} (h : s.abandonedRegion.covers a = false) :
    Memory.lookup s.softReset.lmem a = Memory.lookup s.lmem a := by
  rw [State.softReset_lmem, Memory.lookup_writeBytes, freeBytes_length,
    if_neg ((Region.covers_eq_false ..).1 h)]

/-! ### One step -/

/-- The step while rst_n is low. -/
theorem step_of_inReset {s : State} (h : s.inReset = true) : step s = stepInReset s := by
  simp [step, h]

/-- The step while the bus holds an access. -/
theorem step_of_stalled {s : State} {a : LmemAccess} (h : s.inReset = false) (ha : s.stalled = some a) :
    step s = stepStalled a s := by
  simp [step, h, ha]

/-- The step of a running block. -/
theorem step_of_running {s : State} (h : s.running) : step s = stepRunning s := by
  simp [step, h.1, h.2]

/-- The next input of a running block is taken. -/
theorem step_takeInput {s : State} {i : Input} {rest : List Input} (h : s.running)
    (hi : s.inputs = i :: rest) : step s = takeInput i { s with inputs := rest } := by
  simp [step_of_running h, stepRunning, hi]

/-- With no input left the engine has its turn. -/
theorem step_engine {s : State} (h : s.running) (hi : s.inputs = []) : step s = engineTurn s := by
  simp [step_of_running h, stepRunning, hi]

/-- The ways the engine's turn can end. -/
theorem engineTurn_next_cases {s t : State} (h : engineTurn s = .next t) :
    (s.inflight = none ∧ t = s) ∨ (∃ L, s.ready L.op L ∧ t = (effectOf L.op L s).finish) := by
  unfold engineTurn at h
  split at h
  · next L hL =>
    rcases exec_next_cases h with ⟨h0, _⟩ | ⟨L', hr, ht⟩ | ⟨L', h0, hne, _⟩
    · simp [hL] at h0
    · have : L' = L := by simpa [hL, eq_comm] using hr.1
      subst this
      exact .inr ⟨L', hr, ht⟩
    · have : L' = L := by simpa [hL, eq_comm] using h0
      subst this
      exact absurd rfl hne
  · next hL => exact .inl ⟨hL, by simpa [eq_comm] using h⟩

/-- The ways a CMD write can end: refused while busy, refused as illegal, or the command's issue. -/
theorem commandWrite_next_cases {w : Word} {s t : State} (h : commandWrite w s = .next t) :
    (s.busy = true ∧ t = s.raiseError .busy) ∨
    (s.inflight = none ∧ t = s.raiseError .illegalCmd) ∨
    (s.inflight = none ∧ ∃ i, decode w = .ok i ∧ t = s.issue i) := by
  unfold commandWrite at h
  split at h
  · next hb => exact .inl ⟨hb, by simpa [eq_comm] using h⟩
  · next hb =>
    have h0 : s.inflight = none := by simpa [State.busy] using hb
    split at h
    · exact .inr (.inl ⟨h0, by simpa [eq_comm] using h⟩)
    · next i hd =>
      rw [exec_of_idle i h0] at h
      exact .inr (.inr ⟨h0, i, hd, by simpa [eq_comm] using h⟩)

end Sys2Proof.Machine
end

