-- ==== Sys2Proof/Laws/Completion.lean ====
section
/-! SUPPORT. What a completion that writes LMEM leaves, sums, matrix indices and bits: the lemmas that the proofs of
the result statements share. -/

namespace Sys2Proof.Machine

/-! ### The region a completion writes -/

/-- A run of bytes written at a region's base, as long as the region, writes exactly the region. -/
theorem wroteRegion_of_writeBytes {s t : State} {r : Region} {bs : List Byte} (hl : bs.length = r.len)
    (ht : t = { s with done := true, inflight := none, lmem := t.lmem, draws := t.draws })
    (hm : t.lmem = Memory.writeBytes s.lmem r.base bs) : wroteRegion s t r := by
  refine ⟨ht, fun a ha => ?_, fun a ha => ?_⟩
  · have h := (Region.covers_iff r a).1 ha
    rw [hm, Memory.lookup_writeBytes, hl, if_pos h, List.getElem?_eq_getElem (by omega)]
    rfl
  · have h := (Region.covers_eq_false r a).1 ha
    rw [hm, Memory.lookup_writeBytes, hl, if_neg h]

/-- A completion that stores `n` elements writes the matrix region of `n` elements at L.DST. -/
theorem storeElems_wroteRegion (s : State) (L : Latched) (n reads : Nat) (f : Nat → Nat) :
    wroteRegion s (storeElems L n reads f s).finish (elemRegion L.dst n) :=
  wroteRegion_of_writeBytes (elemsBytes_length L.q f n) rfl rfl

/-- A completion that stores `n` bytes writes the byte region of `n` bytes at L.DST. -/
theorem storeByteRun_wroteRegion (s : State) (L : Latched) (n reads : Nat) (f : Nat → Nat) :
    wroteRegion s (storeByteRun L n reads f s).finish (byteRegion L.dst n) :=
  wroteRegion_of_writeBytes (bs := (List.range n).map (fun j => BitVec.ofNat 8 (f j)))
    (by simp [byteRegion]) rfl rfl

/-- Element `k` of what a completion stored. -/
theorem storeElems_storedWord (s : State) (L : Latched) {n reads : Nat} (f : Nat → Nat) {k : Nat} (hk : k < n) :
    storedWord (storeElems L n reads f s).finish.lmem (L.dst + 2 * k) = some (f k % L.q) :=
  storedWord_elemsBytes s.lmem L.dst L.q f hk L.q_pos_le

/-- A completion that stores `n` elements stores canonical ones, and writes nothing else. -/
theorem storeElems_wroteElems (s : State) (L : Latched) (n reads : Nat) (f : Nat → Nat) :
    wroteElems s (storeElems L n reads f s).finish L n :=
  ⟨storeElems_wroteRegion s L n reads f, fun k hk =>
    ⟨f k % L.q, Nat.mod_lt _ L.q_pos_le.1, storeElems_storedWord s L f hk⟩⟩

/-- Byte `j` of what a completion stored. -/
theorem storeByteRun_lookup (s : State) (L : Latched) {n reads : Nat} (f : Nat → Nat) {j : Nat} (hj : j < n) :
    Memory.lookup (storeByteRun L n reads f s).finish.lmem (L.dst + j) = some (BitVec.ofNat 8 (f j)) := by
  simp only [State.finish_lmem, storeByteRun_lmem, Memory.lookup_writeBytes, List.length_map, List.length_range]
  rw [if_pos (by omega)]
  have e : L.dst + j - L.dst = j := by omega
  simp [e, hj]

/-! ### Elements, indices and sums -/

theorem storedElem_lt {m : Memory} {q a x : Nat} (hq : 0 < q) (h : storedElem m q a = some x) : x < q := by
  simp only [storedElem, Option.map_eq_some_iff] at h
  obtain ⟨w, _, rfl⟩ := h
  exact Nat.mod_lt _ hq

theorem elemOf_of_storedElem {L : Latched} {s : State} {base k pos x : Nat}
    (h : storedElem s.lmem L.q (base + 2 * k) = some x) : elemOf L s base k pos = x :=
  elemRead_of_storedElem h

/-- Row-major indices stay in range (20_memory.md R65). -/
theorem rowMajor_lt {i n j c : Nat} (hi : i < n) (hj : j < c) : i * c + j < n * c :=
  calc i * c + j < i * c + c := by omega
    _ = (i + 1) * c := by rw [Nat.succ_mul]
    _ ≤ n * c := Nat.mul_le_mul_right _ hi

theorem rowMajor_div {i j c : Nat} (hj : j < c) : (i * c + j) / c = i := by
  rw [Nat.mul_comm, Nat.mul_add_div (by omega), Nat.div_eq_of_lt hj, Nat.add_zero]

theorem rowMajor_mod {i j c : Nat} (hj : j < c) : (i * c + j) % c = j := by
  rw [Nat.mul_comm, Nat.mul_add_mod, Nat.mod_eq_of_lt hj]

theorem sumTo_eq_sum (f : Nat → Nat) (n : Nat) : sumTo f n = ∑ k ∈ Finset.range n, f k := by
  induction n with
  | zero => rfl
  | succ n ih => rw [Finset.sum_range_succ, sumTo, ih]

theorem sumTo_congr {f g : Nat → Nat} {n : Nat} (h : ∀ k < n, f k = g k) : sumTo f n = sumTo g n := by
  rw [sumTo_eq_sum, sumTo_eq_sum]
  exact Finset.sum_congr rfl fun k hk => h k (Finset.mem_range.1 hk)

/-! ### Bits -/

theorem natBit_lt_two (v k : Nat) : natBit v k < 2 := Nat.mod_lt _ (by decide)

theorem natBit_eq_testBit (v k : Nat) : natBit v k = (v.testBit k).toNat := by
  rw [natBit, Nat.testBit_eq_decide_div_mod_eq]
  rcases Nat.mod_two_eq_zero_or_one (v / 2 ^ k) with h | h <;> simp [h]

/-- A sum of bits times powers of two is below the next power. -/
theorem sumTo_bits_lt {f : Nat → Nat} (hf : ∀ k, f k < 2) (n : Nat) :
    sumTo (fun l => f l * 2 ^ l) n < 2 ^ n := by
  induction n with
  | zero => simp [sumTo]
  | succ n ih =>
    have : f n * 2 ^ n ≤ 1 * 2 ^ n := Nat.mul_le_mul_right _ (by have := hf n; omega)
    rw [sumTo, Nat.pow_succ]
    omega

/-- The bits of a sum of bits, least significant first. -/
theorem sumTo_bits_testBit {f : Nat → Nat} (hf : ∀ k, f k < 2) {n l : Nat} (hl : l < n) :
    (sumTo (fun l => f l * 2 ^ l) n).testBit l = decide (f l = 1) := by
  induction n with
  | zero => omega
  | succ n ih =>
    have hlt := sumTo_bits_lt hf n
    rw [sumTo, Nat.add_comm, Nat.mul_comm, Nat.testBit_two_pow_mul_add _ hlt]
    split
    · next h => exact ih h
    · next h =>
      have : l = n := by omega
      subst this
      rcases Nat.lt_succ_iff_lt_or_eq.1 (hf l) with h0 | h1
      · have : f l = 0 := by omega
        simp [this]
      · simp [h1]

/-- Writing the same sum most significant first. -/
theorem sumTo_reverse (f : Nat → Nat) (n : Nat) :
    sumTo (fun l => f l * 2 ^ (n - 1 - l)) n = sumTo (fun l => f (n - 1 - l) * 2 ^ l) n := by
  rw [sumTo_eq_sum, sumTo_eq_sum, ← Finset.sum_range_reflect]
  refine Finset.sum_congr rfl fun k hk => ?_
  have := Finset.mem_range.1 hk
  rw [show n - 1 - (n - 1 - k) = k by omega]

end Sys2Proof.Machine
end

