-- ==== Sys2Proof/Laws/PerInstr.lean ====
section
/-! SUPPORT. Statements made once per command: the fields of each command's word. -/

/-- 30_encoding.md R80: the word of a command has RSVD = 0 and OP = FAM * 16 + FN; the command is well formed. -/
def Sys2Proof.Laws.EncodingFields.Statement (i : Sys2Proof.Instr) : Prop :=
  i.wellFormed = true ∧ Sys2Proof.wordReserved (Sys2Proof.encode i) = 0 ∧
    (Sys2Proof.wordFam (Sys2Proof.encode i)).toNat * 16 + (Sys2Proof.wordFn (Sys2Proof.encode i)).toNat =
      (Sys2Proof.opcode i).toNat

theorem Sys2Proof.Laws.EncodingFields.nop : Sys2Proof.Laws.EncodingFields.Statement .nop :=
  ⟨rfl, rfl, rfl⟩

theorem Sys2Proof.Laws.EncodingFields.eRed : Sys2Proof.Laws.EncodingFields.Statement .eRed :=
  ⟨rfl, rfl, rfl⟩

theorem Sys2Proof.Laws.EncodingFields.eAdd : Sys2Proof.Laws.EncodingFields.Statement .eAdd :=
  ⟨rfl, rfl, rfl⟩

theorem Sys2Proof.Laws.EncodingFields.eSub : Sys2Proof.Laws.EncodingFields.Statement .eSub :=
  ⟨rfl, rfl, rfl⟩

theorem Sys2Proof.Laws.EncodingFields.eNeg : Sys2Proof.Laws.EncodingFields.Statement .eNeg :=
  ⟨rfl, rfl, rfl⟩

theorem Sys2Proof.Laws.EncodingFields.eMul : Sys2Proof.Laws.EncodingFields.Statement .eMul :=
  ⟨rfl, rfl, rfl⟩

theorem Sys2Proof.Laws.EncodingFields.eEnc : Sys2Proof.Laws.EncodingFields.Statement .eEnc :=
  ⟨rfl, rfl, rfl⟩

theorem Sys2Proof.Laws.EncodingFields.eDec : Sys2Proof.Laws.EncodingFields.Statement .eDec :=
  ⟨rfl, rfl, rfl⟩

theorem Sys2Proof.Laws.EncodingFields.eEq : Sys2Proof.Laws.EncodingFields.Statement .eEq :=
  ⟨rfl, rfl, rfl⟩

theorem Sys2Proof.Laws.EncodingFields.eCteq : Sys2Proof.Laws.EncodingFields.Statement .eCteq :=
  ⟨rfl, rfl, rfl⟩

theorem Sys2Proof.Laws.EncodingFields.mAdd : Sys2Proof.Laws.EncodingFields.Statement .mAdd :=
  ⟨rfl, rfl, rfl⟩

theorem Sys2Proof.Laws.EncodingFields.mSub : Sys2Proof.Laws.EncodingFields.Statement .mSub :=
  ⟨rfl, rfl, rfl⟩

theorem Sys2Proof.Laws.EncodingFields.mMul : Sys2Proof.Laws.EncodingFields.Statement .mMul :=
  ⟨rfl, rfl, rfl⟩

theorem Sys2Proof.Laws.EncodingFields.mTranspose : Sys2Proof.Laws.EncodingFields.Statement .mTranspose :=
  ⟨rfl, rfl, rfl⟩

theorem Sys2Proof.Laws.EncodingFields.mEq : Sys2Proof.Laws.EncodingFields.Statement .mEq :=
  ⟨rfl, rfl, rfl⟩

theorem Sys2Proof.Laws.EncodingFields.mCteq : Sys2Proof.Laws.EncodingFields.Statement .mCteq :=
  ⟨rfl, rfl, rfl⟩

theorem Sys2Proof.Laws.EncodingFields.sSample : Sys2Proof.Laws.EncodingFields.Statement .sSample :=
  ⟨rfl, rfl, rfl⟩

theorem Sys2Proof.Laws.EncodingFields.sSampleMat : Sys2Proof.Laws.EncodingFields.Statement .sSampleMat :=
  ⟨rfl, rfl, rfl⟩

theorem Sys2Proof.Laws.EncodingFields.cEncode : Sys2Proof.Laws.EncodingFields.Statement .cEncode :=
  ⟨rfl, rfl, rfl⟩

theorem Sys2Proof.Laws.EncodingFields.cDecode : Sys2Proof.Laws.EncodingFields.Statement .cDecode :=
  ⟨rfl, rfl, rfl⟩

theorem Sys2Proof.Laws.EncodingFields.cPack : Sys2Proof.Laws.EncodingFields.Statement .cPack :=
  ⟨rfl, rfl, rfl⟩

theorem Sys2Proof.Laws.EncodingFields.cUnpack : Sys2Proof.Laws.EncodingFields.Statement .cUnpack :=
  ⟨rfl, rfl, rfl⟩

theorem Sys2Proof.Laws.EncodingFields.cStoreLe : Sys2Proof.Laws.EncodingFields.Statement .cStoreLe :=
  ⟨rfl, rfl, rfl⟩

theorem Sys2Proof.Laws.EncodingFields.cLoadLe : Sys2Proof.Laws.EncodingFields.Statement .cLoadLe :=
  ⟨rfl, rfl, rfl⟩
end

