-- ==== Sys2Proof/Laws/Step.lean ====
section
/-! SUPPORT. Everything one step can do, said twice: as a chain of elementary changes (for invariants) and as the
cause of the change (for the whole-machine rules). -/

namespace Sys2Proof.Machine

/-! ### A step as a chain of elementary changes -/

/-- The elementary changes of the state. -/
inductive Change : State → State → Prop
  | inputs (s : State) (r : List Input) : Change s { s with inputs := r }
  | answer (s : State) (r : Response) : Change s (s.answer r)
  | stall (s : State) (a : LmemAccess) : s.inReset = false → s.busy = true →
      Change s { s with stalled := some a, resp := .none }
  | unstall (s : State) : Change s { s with stalled := none }
  | release (s : State) : Change s { s with inReset := false }
  | completed (s : State) (L : Latched) : s.inReset = false → s.ready L.op L →
      Change s (effectOf L.op L s).finish
  | raised (s : State) (e : ErrCode) : s.inReset = false → Change s (s.raiseError e)
  | issued (s : State) (i : Instr) : s.inReset = false → s.inflight = none → Change s (s.issue i)
  | cleared (s : State) (w : Word) : s.inReset = false → Change s (s.clearStatus w)
  | ie (s : State) (b : Bool) : s.inReset = false → Change s { s with ie := b }
  | regs (s : State) (r : OpRegs) : s.inReset = false → Change s { s with regs := r }
  | softReset (s : State) : s.inReset = false → Change s s.softReset
  | hardReset (s : State) : Change s s.hardReset
  | reads (s : State) (n : Nat) : Change s (s.countReads n)
  | hostStore (s : State) (a n v : Nat) : s.inReset = false → s.busy = false → a + n ≤ s.params.lmemSize →
      Change s (s.storeBytes a (leBytes n v))

/-- A chain of elementary changes. -/
abbrev Changes : State → State → Prop := Relation.ReflTransGen Change

theorem engineTurn_changes {s t : State} (hr : s.inReset = false) (h : engineTurn s = .next t) :
    Changes s t := by
  rcases engineTurn_next_cases h with ⟨_, rfl⟩ | ⟨L, hL, rfl⟩
  · exact .refl
  · exact .single (.completed s L hr hL)

theorem writeReg_changes {s : State} (hr : s.inReset = false) (r : Reg) (w : Word) :
    Changes s (writeReg s r w) := by
  cases r <;> simp only [writeReg, writeCtrl]
  case ctrl =>
    split
    · exact .single (.softReset s hr)
    · exact .single (.ie s _ hr)
  case status => exact .single (.cleared s w hr)
  all_goals first | exact .refl | exact .single (.regs s _ hr)

theorem commandWrite_changes {s t : State} {w : Word} (hr : s.inReset = false)
    (h : commandWrite w s = .next t) : Changes s t := by
  rcases commandWrite_next_cases h with ⟨_, rfl⟩ | ⟨_, rfl⟩ | ⟨h0, i, _, rfl⟩
  · exact .single (.raised s _ hr)
  · exact .single (.raised s _ hr)
  · exact .single (.issued s i hr h0)

theorem csrAccess_changes {s t : State} {a : CsrAccess} (hr : s.inReset = false)
    (h : csrAccess a s = .next t) : Changes s t := by
  cases a <;> simp only [csrAccess] at h
  · split at h <;> cases h <;> exact .single (.answer s _)
  · split at h
    · split at h
      · exact .head (.answer s _) (commandWrite_changes (by exact hr) h)
      · cases h
        exact .head (.answer s _) (writeReg_changes (by exact hr) _ _)
      · cases h
        exact .single (.answer s _)
    · cases h
      exact .single (.answer s _)

theorem lmemAccess_changes {s : State} (a : LmemAccess) (hr : s.inReset = false) (hb : s.busy = false) :
    Changes s (lmemAccess a s) := by
  cases a <;> simp only [lmemAccess] <;> split
  · exact .head (.answer s _) (.single (.reads _ _))
  · exact .single (.answer s _)
  · next h =>
    simp only [lmemAdmitted, Bool.and_eq_true, decide_eq_true_eq] at h
    exact .head (.answer s _) (.single (.hostStore _ _ _ _ hr hb h.2))
  · exact .single (.answer s _)

theorem takeInput_changes {s t : State} {i : Input} (hr : s.inReset = false) (h : takeInput i s = .next t) :
    Changes s t := by
  cases i <;> simp only [takeInput] at h
  · exact csrAccess_changes hr h
  · split at h
    · next hb =>
      cases h
      exact .single (.stall s _ hr hb)
    · next hb =>
      cases h
      exact lmemAccess_changes _ hr (by simpa using hb)
  · exact engineTurn_changes hr h
  · exact .head (.answer s .written) (.head (.cleared _ _ hr) (engineTurn_changes (by exact hr) h))
  · cases h
    exact .single (.hardReset s)
  · cases h
    exact .refl

theorem not_busy_of {s : State} (h : ¬s.busy = true) : s.busy = false := by simpa using h

/-- A step is a chain of elementary changes. -/
theorem step_changes {s t : State} (h : step s = .next t) : Changes s t := by
  by_cases hr : s.inReset = true
  · rw [step_of_inReset hr] at h
    unfold stepInReset at h
    split at h <;> cases h
    · exact .refl
    · exact .head (.release s) (.single (.inputs _ _))
    · exact .single (.inputs _ _)
    · exact .single (.inputs _ _)
  · have hr : s.inReset = false := by simpa using hr
    rcases Option.eq_none_or_eq_some s.stalled with ha | ⟨a, ha⟩
    · rw [step_of_running ⟨hr, ha⟩] at h
      unfold stepRunning at h
      split at h
      · exact engineTurn_changes hr h
      · exact .head (.inputs s _) (takeInput_changes (by exact hr) h)
    · rw [step_of_stalled hr ha] at h
      unfold stepStalled at h
      split at h
      · cases h
        exact .head (.inputs s _) (.single (.hardReset _))
      · split at h
        · exact .head (.inputs s _) (engineTurn_changes (by exact hr) h)
        · next hb =>
          cases h
          exact .head (.unstall s) (lmemAccess_changes _ hr (not_busy_of hb))
      · split at h
        · exact engineTurn_changes hr h
        · next hb =>
          cases h
          exact .head (.unstall s) (lmemAccess_changes _ hr (not_busy_of hb))

/-! ### The cause of a step's change -/

/-- `s` after the host port has taken a register write, with `r` the inputs that remain. -/
def State.took (s : State) (r : List Input) : State := { s with inputs := r, resp := .written }

/-- What a step did to the flags, RES, the command in flight and (while busy) LMEM, and why. -/
inductive StepResult (s : State) : State → Prop
  /-- None of them changed. -/
  | quiet (t : State) : t.done = s.done → t.err = s.err → t.errcode = s.errcode → t.res = s.res →
      t.inflight = s.inflight → (s.busy = true → t.lmem = s.lmem) → StepResult s t
  /-- A completion. -/
  | completed (r : List Input) (L : Latched) : ({ s with inputs := r } : State).ready L.op L →
      StepResult s (effectOf L.op L { s with inputs := r }).finish
  /-- A completion in the cycle of a STATUS write. -/
  | clearedCompleted (r : List Input) (w : Word) (L : Latched) :
      s.stalled = none → s.inputs = .statusWriteAtCompletion w :: r → ((s.took r).clearStatus w).ready L.op L →
      StepResult s (effectOf L.op L ((s.took r).clearStatus w)).finish
  /-- A STATUS write. -/
  | cleared (r : List Input) (w : Word) : s.stalled = none →
      s.inputs = .csr (.write 4 0x008 w) :: r ∨ s.inputs = .statusWriteAtCompletion w :: r →
      StepResult s ((s.took r).clearStatus w)
  /-- A CMD write that was refused before the issue checks. -/
  | raised (r : List Input) (e : ErrCode) : StepResult s ((s.took r).raiseError e)
  /-- A CMD write of a command. -/
  | issued (r : List Input) (i : Instr) : s.inflight = none → StepResult s ((s.took r).issue i)
  /-- A soft reset. -/
  | softReset (r : List Input) (w : Word) : s.stalled = none → s.inputs = .csr (.write 4 0x004 w) :: r →
      w.getLsbD 1 = true →
      StepResult s (s.took r).softReset
  /-- A hardware reset. -/
  | hardReset (r : List Input) : s.inputs = .resetAssert :: r →
      StepResult s ({ s with inputs := r } : State).hardReset

theorem regAt_ctrl {n : Nat} (h : regAt n = some .ctrl) : n = 0x004 := by
  unfold regAt at h
  split at h <;> first | rfl | cases h | (split at h <;> cases h)

theorem regAt_status {n : Nat} (h : regAt n = some .status) : n = 0x008 := by
  unfold regAt at h
  split at h <;> first | rfl | cases h | (split at h <;> cases h)

/-- The engine's turn from a state that differs from `s` only in its inputs. -/
theorem engineTurn_result {s t : State} {r : List Input} (h : engineTurn { s with inputs := r } = .next t) :
    StepResult s t := by
  rcases engineTurn_next_cases h with ⟨_, rfl⟩ | ⟨L, hL, rfl⟩
  · exact .quiet _ rfl rfl rfl rfl rfl fun _ => rfl
  · exact .completed r L hL

/-- A host LMEM access with nothing in flight, from a state that differs from `s` only in its inputs and the stall. -/
theorem lmemAccess_result {s : State} {r : List Input} (st : Option LmemAccess) (a : LmemAccess)
    (hb : s.busy = false) : StepResult s (lmemAccess a { s with inputs := r, stalled := st }) := by
  cases a <;> simp only [lmemAccess] <;> split <;>
    exact .quiet _ rfl rfl rfl rfl rfl (by simp [hb])

theorem csrAccess_result {s t : State} {r : List Input} {a : CsrAccess} (hs : s.stalled = none)
    (hi : s.inputs = .csr a :: r) (h : csrAccess a { s with inputs := r } = .next t) : StepResult s t := by
  cases a with
  | read width offset =>
    simp only [csrAccess] at h
    split at h <;> cases h <;> exact .quiet _ rfl rfl rfl rfl rfl fun _ => rfl
  | write width offset w =>
    simp only [csrAccess] at h
    split at h
    · next hadm =>
      simp only [csrAdmitted, Bool.and_eq_true, beq_iff_eq] at hadm
      obtain ⟨⟨rfl, _⟩, _⟩ := hadm
      split at h
      · rcases commandWrite_next_cases h with ⟨_, rfl⟩ | ⟨_, rfl⟩ | ⟨h0, i, _, rfl⟩
        · exact .raised r _
        · exact .raised r _
        · exact .issued r i h0
      · next reg _ hreg =>
        cases h
        cases reg <;> simp only [writeReg]
        case ctrl =>
          cases regAt_ctrl hreg
          unfold writeCtrl
          split
          · next hw => exact .softReset r w hs hi hw
          · exact .quiet _ rfl rfl rfl rfl rfl fun _ => rfl
        case status =>
          cases regAt_status hreg
          exact .cleared r w hs (.inl hi)
        all_goals exact .quiet _ rfl rfl rfl rfl rfl fun _ => rfl
      · cases h
        exact .quiet _ rfl rfl rfl rfl rfl fun _ => rfl
    · cases h
      exact .quiet _ rfl rfl rfl rfl rfl fun _ => rfl

theorem takeInput_result {s t : State} {r : List Input} {i : Input} (hs : s.stalled = none)
    (hi : s.inputs = i :: r) (h : takeInput i { s with inputs := r } = .next t) : StepResult s t := by
  cases i with
  | csr a => exact csrAccess_result hs hi h
  | lmem a =>
    simp only [takeInput] at h
    split at h
    · cases h
      exact .quiet _ rfl rfl rfl rfl rfl fun _ => rfl
    · next hb =>
      cases h
      exact lmemAccess_result s.stalled a (not_busy_of hb)
  | engine => exact engineTurn_result h
  | statusWriteAtCompletion w =>
    simp only [takeInput] at h
    rcases engineTurn_next_cases h with ⟨_, rfl⟩ | ⟨L, hL, rfl⟩
    · exact .cleared r w hs (.inr hi)
    · exact .clearedCompleted r w L hs hi hL
  | resetAssert =>
    cases h
    exact .hardReset r hi
  | resetRelease =>
    cases h
    exact .quiet _ rfl rfl rfl rfl rfl fun _ => rfl

/-- Every step has one of the causes. -/
theorem step_result {s t : State} (h : step s = .next t) : StepResult s t := by
  by_cases hr : s.inReset = true
  · rw [step_of_inReset hr] at h
    unfold stepInReset at h
    split at h <;> cases h <;> exact .quiet _ rfl rfl rfl rfl rfl fun _ => rfl
  · have hr : s.inReset = false := by simpa using hr
    rcases Option.eq_none_or_eq_some s.stalled with ha | ⟨a, ha⟩
    · rw [step_of_running ⟨hr, ha⟩] at h
      unfold stepRunning at h
      split at h
      · exact engineTurn_result (r := s.inputs) h
      · next i r hi => exact takeInput_result ha hi h
    · rw [step_of_stalled hr ha] at h
      unfold stepStalled at h
      split at h
      · next r hi =>
        cases h
        exact .hardReset r hi
      · split at h
        · exact engineTurn_result h
        · next hb =>
          cases h
          exact lmemAccess_result (r := s.inputs) none a (not_busy_of hb)
      · split at h
        · exact engineTurn_result (r := s.inputs) h
        · next hb =>
          cases h
          exact lmemAccess_result (r := s.inputs) none a (not_busy_of hb)

end Sys2Proof.Machine
end

