-- ==== Sys2Proof/Tests/Slice0.lean ====
section
/-! SUPPORT. Tests: well-formedness, decoding, one or two vectors of 95_test_vectors.md per command, host-port steps, and
a witness for the hypotheses of every statement. Every expected value is the spec's, cited at its test. -/

namespace Sys2Proof.Tests

open Sys2Proof Sys2Proof.Machine

set_option Elab.async false

/-! ### Small states and views -/

/-- The next state, if the outcome is one. -/
def nextOf (o : Host.Outcome State Fault Refusal) : Option State :=
  match o with
  | .next t => some t
  | .fault _ => none
  | .refused _ => none

/-- RES in the next state. -/
def resOf (o : Host.Outcome State Fault Refusal) : Option Word := (nextOf o).map (·.res)

/-- STATUS, as read, in the next state. -/
def statusOf (o : Host.Outcome State Fault Refusal) : Option Word := (nextOf o).map (·.statusWord)

/-- The answer of the host port in the next state. -/
def respOf (o : Host.Outcome State Fault Refusal) : Option Response := (nextOf o).map (·.resp)

/-- The `n` bytes at `a` in the next state; an unwritten byte is `none`. -/
def bytesOf (o : Host.Outcome State Fault Refusal) (a n : Nat) : Option (List (Option Byte)) :=
  (nextOf o).map fun t => (List.range n).map fun k => Memory.lookup t.lmem (a + k)

/-- The `n` 16-bit words at `a` in the next state. -/
def wordsOf (o : Host.Outcome State Fault Refusal) (a n : Nat) : Option (List (Option Nat)) :=
  (nextOf o).map fun t => (List.range n).map fun k => storedWord t.lmem (a + 2 * k)

/-- Operand registers with CFG, OPA and OPB. -/
def scalarRegs (cfg opa opb : Word) : OpRegs :=
  { OpRegs.reset with cfg := Cfg.ofWord cfg, opa := opa, opb := opb }

/-- Operand registers with CFG, the bases and the dimensions. -/
def matrixRegs (cfg src0 src1 dst : Word) (rows cols inner : Half) : OpRegs :=
  { OpRegs.reset with cfg := Cfg.ofWord cfg, src0 := src0, src1 := src1, dst := dst,
                      rows := rows, cols := cols, inner := inner }

/-- LMEM with 16-bit words from address 0 up. -/
def words (ws : List Nat) : Memory := Memory.writeBytes [] 0 (ws.flatMap (leBytes 2))

/-- LMEM with bytes from address 0 up. -/
def bytes (bs : List Byte) : Memory := Memory.writeBytes [] 0 bs

/-- The latched copy of command `i` with registers `r`. -/
def latch (i : Instr) (r : OpRegs) : Latched := { op := i, regs := r }

/-- The block out of reset with registers `r` and LMEM `m`. -/
def idle (r : OpRegs) (m : Memory) : State := { State.reset with regs := r, lmem := m }

/-- The same with command `i` in flight. -/
def flying (i : Instr) (r : OpRegs) (m : Memory) : State :=
  { idle r m with inflight := some (latch i r) }

/-- The completion of command `i` from registers `r` and LMEM `m`. -/
def complete (i : Instr) (r : OpRegs) (m : Memory) : Host.Outcome State Fault Refusal := exec i (flying i r m)

/-- A scalar completion. -/
def scalar (i : Instr) (cfg opa opb : Word) : Option Word := resOf (complete i (scalarRegs cfg opa opb) [])

/-- STATUS after the CMD write of `w` from registers `r` (V-E: STATUS = 0, LMEM_SIZE = 4096). -/
def afterCmd (w : Word) (r : OpRegs) : Option Word :=
  statusOf (step { idle r [] with inputs := [.csr (.write 4 0x010 w)] })

/-- `s` with the next inputs `is`. -/
def given (s : State) (is : List Input) : State := { s with inputs := is }

/-! ### Well-formedness (00_scope.md R9): each check refuses an ill-formed term -/

theorem test_default_params_wellFormed : Config.Params.default.wellFormed = true := by decide

theorem test_lmem_size_not_multiple_of_4 :
    { Config.Params.default with lmemSize := 4094 }.wellFormed = false := by decide

theorem test_lmem_size_too_small : { Config.Params.default with lmemSize := 0 }.wellFormed = false := by decide

theorem test_lmem_size_too_large :
    { Config.Params.default with lmemSize := 2 ^ 31 + 4 }.wellFormed = false := by decide

theorem test_lmem_size_bounds :
    Config.lmemSizeLegal 4 = true ∧ Config.lmemSizeLegal (2 ^ 31) = true := by decide

theorem test_chi_empty_640 : { Config.Params.default with chi640 := [] }.wellFormed = false := by decide

theorem test_chi_too_long_976 :
    { Config.Params.default with chi976 := List.replicate 17 2 }.wellFormed = false := by decide

theorem test_chi_entry_too_large_1344 :
    { Config.Params.default with chi1344 := [2, 65536] }.wellFormed = false := by decide

theorem test_chi_head_odd : Config.chiHeadLegal [3] = false ∧ Config.chiLegal [3] = false := by decide

theorem test_chi_head_zero : Config.chiHeadLegal [0, 1] = false ∧ Config.chiLegal [0, 1] = false := by decide

theorem test_cdf_entry_too_large :
    Config.cdfFits [40000, 40000, 20000] = false ∧ Config.chiLegal [40000, 40000, 20000] = false := by decide

theorem test_every_command_wellFormed : Instr.nop.wellFormed = true ∧ Instr.cLoadLe.wellFormed = true := by decide

/-! ### Decoding (30_encoding.md R80, R82): every command's word, bit by bit -/

theorem test_decode_ring :
    decode 0b00000000000000000000000000000000#32 = .ok .nop ∧
    decode 0b00000000000000000000000000000001#32 = .ok .eRed ∧
    decode 0b00000000000000000000000000000010#32 = .ok .eAdd ∧
    decode 0b00000000000000000000000000000011#32 = .ok .eSub ∧
    decode 0b00000000000000000000000000000100#32 = .ok .eNeg ∧
    decode 0b00000000000000000000000000000101#32 = .ok .eMul ∧
    decode 0b00000000000000000000000000000110#32 = .ok .eEnc ∧
    decode 0b00000000000000000000000000000111#32 = .ok .eDec ∧
    decode 0b00000000000000000000000000001000#32 = .ok .eEq ∧
    decode 0b00000000000000000000000000001001#32 = .ok .eCteq := by decide

theorem test_decode_matrix :
    decode 0b00000000000000000000000000010000#32 = .ok .mAdd ∧
    decode 0b00000000000000000000000000010001#32 = .ok .mSub ∧
    decode 0b00000000000000000000000000010010#32 = .ok .mMul ∧
    decode 0b00000000000000000000000000010011#32 = .ok .mTranspose ∧
    decode 0b00000000000000000000000000010100#32 = .ok .mEq ∧
    decode 0b00000000000000000000000000010101#32 = .ok .mCteq := by decide

theorem test_decode_sampler :
    decode 0b00000000000000000000000000100000#32 = .ok .sSample ∧
    decode 0b00000000000000000000000000100001#32 = .ok .sSampleMat := by decide

theorem test_decode_codec :
    decode 0b00000000000000000000000000110000#32 = .ok .cEncode ∧
    decode 0b00000000000000000000000000110001#32 = .ok .cDecode ∧
    decode 0b00000000000000000000000000110010#32 = .ok .cPack ∧
    decode 0b00000000000000000000000000110011#32 = .ok .cUnpack ∧
    decode 0b00000000000000000000000000110100#32 = .ok .cStoreLe ∧
    decode 0b00000000000000000000000000110101#32 = .ok .cLoadLe := by decide

/-- R85: the edges of the reserved opcode ranges, and a reserved bit. -/
theorem test_decode_rejects :
    (∀ n ∈ [0x0A, 0x0F, 0x16, 0x1F, 0x22, 0x2F, 0x36, 0x3F, 0x40, 0xFF],
      decode (BitVec.ofNat 32 n) = .error .reservedOpcode) ∧
    decode 0x00000100#32 = .error .reservedBits ∧ decode 0x80000000#32 = .error .reservedBits := by decide +kernel

/-- 20_memory.md R61: the bytes of a word, least significant first; and no other length. -/
theorem test_decode_bytes :
    decodeBytes [0x35, 0x00, 0x00, 0x00] = .ok .cLoadLe ∧
    decodeBytes [0x00, 0x00, 0x00, 0x35] = .error .reservedBits ∧
    decodeBytes [0x35] = .error .notOneWord ∧ decodeBytes [] = .error .notOneWord := by decide

theorem test_decode_table_word :
    decodeTableWord 32 0x13 = some .mTranspose ∧ decodeTableWord 32 0x3A = none := by decide

/-! ### Ring elements (V-R) -/

theorem test_nop_only_done : statusOf (complete .nop (scalarRegs 0x20 1 2) []) = some 0x00000002 := by decide

theorem test_e_red : scalar .eRed 0x20 0xFFFFFFFF 0 = some 0x7FFF ∧ scalar .eRed 0x21 0x8000 0 = some 0x8000 := by decide

theorem test_e_add_wraps :
    scalar .eAdd 0x20 0x7FFF 0x0001 = some 0 ∧ scalar .eAdd 0x21 0x4000 0x4000 = some 0x8000 := by decide

theorem test_e_sub_borrows :
    scalar .eSub 0x20 0x0000 0x0001 = some 0x7FFF ∧ scalar .eSub 0x21 0x0003 0x8001 = some 0x8002 := by decide

theorem test_e_neg :
    scalar .eNeg 0x20 0x0000 0 = some 0 ∧ scalar .eNeg 0x21 0x4000 0 = some 0xC000 := by decide

theorem test_e_mul :
    scalar .eMul 0x20 0x7FFF 0x7FFF = some 1 ∧ scalar .eMul 0x21 0x1234 0x5678 = some 0x60 := by
  decide +kernel

theorem test_e_enc : scalar .eEnc 0x20 3 0 = some 0x6000 ∧ scalar .eEnc 0x41 0x13 0 = some 0x3000 := by decide

theorem test_e_dec_rounds :
    scalar .eDec 0x20 0x1000 0 = some 1 ∧ scalar .eDec 0x20 0x0FFF 0 = some 0 ∧
    scalar .eDec 0x20 0x7000 0 = some 0 ∧ scalar .eDec 0x31 0xEFFF 0 = some 7 := by decide

theorem test_e_eq : scalar .eEq 0x20 0x8001 1 = some 1 ∧ scalar .eEq 0x21 0x8001 1 = some 0 := by decide

theorem test_e_cteq : scalar .eCteq 0x20 0x8001 1 = some 0xFFFF ∧ scalar .eCteq 0x21 0x1234 0x1235 = some 0 := by decide

/-! ### Matrices (V-M). X stands at 0, Y behind it, the result at 0x40. -/

/-- X = [[7FFF, 1], [2, 3]] and Y = [[1, 7FFF], [5, 8004]]. -/
def pairXY : Memory := words [0x7FFF, 1, 2, 3, 1, 0x7FFF, 5, 0x8004]

/-- Registers for a 2×2 command on `pairXY`. -/
def regsXY (cfg : Word) : OpRegs := matrixRegs cfg 0 8 0x40 2 2 0

theorem test_m_add : wordsOf (complete .mAdd (regsXY 0x20) pairXY) 0x40 4 = some [some 0, some 0, some 7, some 7] := by
  decide +kernel

theorem test_m_add_16 :
    wordsOf (complete .mAdd (regsXY 0x21) pairXY) 0x40 4 =
      some [some 0x8000, some 0x8000, some 7, some 0x8007] := by decide +kernel

theorem test_m_sub :
    wordsOf (complete .mSub (regsXY 0x20) pairXY) 0x40 4 =
      some [some 0x7FFE, some 2, some 0x7FFD, some 0x7FFF] := by decide +kernel

/-- X is 2×3 and Y 3×2. -/
theorem test_m_mul :
    wordsOf (complete .mMul (matrixRegs 0x20 0 12 0x40 2 2 3) (words [1, 2, 3, 4, 5, 6, 7, 8, 9, 10, 11, 12])) 0x40 4 =
      some [some 58, some 64, some 139, some 154] := by decide +kernel

theorem test_m_mul_16 :
    wordsOf (complete .mMul (matrixRegs 0x21 0 8 0x40 2 1 2) (words [0x7FFF, 0x7FFF, 0x4000, 2, 0x7FFF, 3])) 0x40 2 =
      some [some 0x7FFE, some 0xC006] := by decide +kernel

theorem test_m_transpose :
    wordsOf (complete .mTranspose (matrixRegs 0x20 0 0 0x40 2 3 0) (words [1, 2, 3, 4, 5, 6])) 0x40 6 =
      some [some 1, some 4, some 2, some 5, some 3, some 6] := by decide +kernel

/-- X = [[1, 2]], Y = [[8001, 2]]. -/
theorem test_m_eq :
    resOf (complete .mEq (matrixRegs 0x20 0 4 0 1 2 0) (words [1, 2, 0x8001, 2])) = some 1 ∧
    resOf (complete .mEq (matrixRegs 0x21 0 4 0 1 2 0) (words [1, 2, 0x8001, 2])) = some 0 := by decide +kernel

theorem test_m_cteq :
    resOf (complete .mCteq (matrixRegs 0x20 0 4 0 1 2 0) (words [1, 2, 1, 3])) = some 0 ∧
    resOf (complete .mCteq (matrixRegs 0x20 0 0 0 1 2 0) (words [1, 2])) = some 0xFFFF := by decide +kernel

/-! ### The sampler (V-S) -/

theorem test_s_sample :
    scalar .sSample 0x20 0x2447 0 = some 0 ∧ scalar .sSample 0x20 0x2449 0 = some 0x7FFF ∧
    scalar .sSample 0x20 0xABCD 0 = some 0x7FFD ∧ scalar .sSample 0x20 0x00012448 0 = some 1 := by decide +kernel

theorem test_s_sample_other_tables :
    scalar .sSample 0x121 0x2C0F 0 = some 0xFFFF ∧ scalar .sSample 0x221 0xFFFF 0 = some 0xFFFA ∧
    scalar .sSample 0x221 0x476C 0 = some 0 := by decide +kernel

theorem test_s_sample_mat :
    bytesOf (complete .sSampleMat (matrixRegs 0x20 0 0 0x10 1 4 0)
        (bytes [0x00, 0x00, 0x48, 0x24, 0x49, 0x24, 0xFF, 0xFF])) 0x10 8 =
      some ([0x00, 0x00, 0x01, 0x00, 0xFF, 0x7F, 0xF4, 0x7F].map some) := by decide +kernel

/-- P5 step 5: in place. -/
theorem test_s_sample_mat_in_place :
    bytesOf (complete .sSampleMat (matrixRegs 0x20 0 0 0 1 4 0)
        (bytes [0x00, 0x00, 0x48, 0x24, 0x49, 0x24, 0xFF, 0xFF])) 0 8 =
      some ([0x00, 0x00, 0x01, 0x00, 0xFF, 0x7F, 0xF4, 0x7F].map some) := by decide +kernel

/-! ### The codec (V-C) -/

theorem test_c_encode :
    wordsOf (complete .cEncode (matrixRegs 0x30 0 0 0x10 1 8 0) (bytes [0xFF, 0x00, 0xFF])) 0x10 8 =
      some ([0x7000, 0x7000, 0x3000, 0, 0, 0x6000, 0x7000, 0x7000].map some) := by decide +kernel

theorem test_c_encode_4 :
    wordsOf (complete .cEncode (matrixRegs 0x41 0 0 0x10 1 8 0) (bytes [0x21, 0x43, 0x65, 0x87])) 0x10 8 =
      some ([0x1000, 0x2000, 0x3000, 0x4000, 0x5000, 0x6000, 0x7000, 0x8000].map some) := by decide +kernel

theorem test_c_decode :
    bytesOf (complete .cDecode (matrixRegs 0x31 0 0 0x21 1 8 0)
        (words [0x0FFF, 0x1000, 0x4800, 0x5FFF, 0x8000, 0xAFFF, 0xB000, 0xE005])) 0x21 3 =
      some ([0x88, 0xC6, 0xFA].map some) := by decide +kernel

theorem test_c_pack :
    bytesOf (complete .cPack (matrixRegs 0x20 0 0 0x21 1 8 0)
        (words [0x1234, 0x7FFF, 0, 0x4000, 1, 2, 0x7FFE, 0x5555])) 0x21 15 =
      some ([0x24, 0x69, 0xFF, 0xFC, 0x00, 0x04, 0x00, 0x00, 0x00, 0x20, 0x00, 0xBF, 0xFF, 0x55, 0x55].map some) := by
  decide +kernel

/-- Three elements: 45 bits and 3 padding bits; and D = 16 with the high byte first. -/
theorem test_c_pack_padding :
    bytesOf (complete .cPack (matrixRegs 0x20 0 0 0x21 1 3 0) (words [1, 2, 3])) 0x21 6 =
      some ([0x00, 0x02, 0x00, 0x08, 0x00, 0x18].map some) ∧
    bytesOf (complete .cPack (matrixRegs 0x21 0 0 0x21 1 2 0) (words [0x1234, 0xABCD])) 0x21 4 =
      some ([0x12, 0x34, 0xAB, 0xCD].map some) := by decide +kernel

theorem test_c_unpack :
    wordsOf (complete .cUnpack (matrixRegs 0x20 0 0 0x20 1 8 0)
        (bytes [0x00, 0x02, 0x00, 0x08, 0x00, 0x18, 0x00, 0x40, 0x00, 0xA0, 0x01, 0x80, 0x03, 0x80, 0x08])) 0x20 8 =
      some ([1, 2, 3, 4, 5, 6, 7, 8].map some) ∧
    wordsOf (complete .cUnpack (matrixRegs 0x20 0 0 0x20 1 1 0) (bytes [0xFF, 0xFF])) 0x20 1 = some [some 0x7FFF] := by
  decide +kernel

theorem test_c_store_le :
    bytesOf (complete .cStoreLe (matrixRegs 0x20 0 0 0x11 1 1 0) (words [0x9234])) 0x11 2 =
      some ([0x34, 0x12].map some) ∧
    bytesOf (complete .cStoreLe (matrixRegs 0x21 0 0 0x11 1 1 0) (words [0x9234])) 0x11 2 =
      some ([0x34, 0x92].map some) := by decide +kernel

theorem test_c_load_le :
    wordsOf (complete .cLoadLe (matrixRegs 0x20 0 0 0x10 1 2 0) (bytes [0xFF, 0xFF, 0x34, 0x92])) 0x10 2 =
      some [some 0x7FFF, some 0x1234] ∧
    wordsOf (complete .cLoadLe (matrixRegs 0x21 0 0 0x10 1 2 0) (bytes [0xFF, 0xFF, 0x34, 0x92])) 0x10 2 =
      some [some 0xFFFF, some 0x9234] := by decide +kernel

/-! ### Issue (V-E): STATUS after a CMD write; 1 is BUSY alone, the command in flight -/

theorem test_illegal_words :
    afterCmd 0x00000100 OpRegs.reset = some 0x104 ∧ afterCmd 0x0000000A OpRegs.reset = some 0x104 ∧
    afterCmd 0x000000FF OpRegs.reset = some 0x104 := by decide +kernel

theorem test_bad_cfg :
    afterCmd 0x06 (scalarRegs 0x50 0 0) = some 0x204 ∧ afterCmd 0x02 (scalarRegs 0x50 1 2) = some 1 ∧
    afterCmd 0x20 (scalarRegs 0x320 0 0) = some 0x204 ∧ afterCmd 0x04 (scalarRegs 0x320 0 0) = some 1 := by
  decide +kernel

theorem test_bad_dim :
    afterCmd 0x12 (matrixRegs 0x20 1 0 0 2 1 0) = some 0x304 ∧ afterCmd 0x10 OpRegs.reset = some 0x304 ∧
    afterCmd 0x30 (matrixRegs 0x20 0 0 0x20 1 4 0) = some 0x304 := by decide +kernel

theorem test_misaligned :
    afterCmd 0x10 (matrixRegs 0x20 1 2 4 1 1 0) = some 0x404 ∧
    afterCmd 0x32 (matrixRegs 0x20 0 0 0x101 1 8 0) = some 1 := by decide +kernel

theorem test_out_of_range :
    afterCmd 0x10 (matrixRegs 0x20 0 8 0xFFE 1 2 0) = some 0x504 ∧
    afterCmd 0x10 (matrixRegs 0x20 0 8 0xFFC 1 2 0) = some 1 ∧
    afterCmd 0x13 (matrixRegs 0x20 0xFFFFFFFE 0 0x10 1 1 0) = some 0x504 := by decide +kernel

theorem test_overlap :
    afterCmd 0x12 (matrixRegs 0x20 0 8 0 2 2 2) = some 0x604 ∧ afterCmd 0x10 (matrixRegs 0x20 0 8 0 1 2 0) = some 1 ∧
    afterCmd 0x10 (matrixRegs 0x20 0 8 2 1 2 0) = some 0x604 := by decide +kernel

/-- BUSY comes before ILLEGAL_CMD, and the first code is kept. -/
theorem test_check_order_and_first_code :
    statusOf (step (given (flying .nop OpRegs.reset []) [.csr (.write 4 0x010 0x100)])) = some 0x705 ∧
    statusOf (step { given State.reset [.csr (.write 4 0x010 0x100)] with err := true, errcode := 3 }) = some 0x304 := by
  decide +kernel

/-! ### The host port, STATUS, interrupt and reset (V-X) -/

theorem test_reset_reads :
    respOf (step (given State.reset [.csr (.read 4 0x000)])) = some (.data 0x464B0001) ∧
    respOf (step (given State.reset [.csr (.read 4 0x00C)])) = some (.data 0x00000020) ∧
    respOf (step (given State.reset [.csr (.read 4 0x03C)])) = some (.data 13) ∧
    respOf (step (given State.reset [.csr (.read 4 0x040)])) = some (.data 0x1223) ∧
    respOf (step (given State.reset [.csr (.read 4 0x074)])) = some (.data 0) := by decide +kernel

/-- 10_state.md R34: the readback of CDF_LEN, CDF_T0 and CDF_T15 while CFG.PSET = 3. -/
theorem test_cdf_readback_pset_3 :
    respOf (step (given (idle (scalarRegs 0x320 0 0) []) [.csr (.read 4 0x03C)])) = some (.data 0) ∧
    respOf (step (given (idle (scalarRegs 0x320 0 0) []) [.csr (.read 4 0x040)])) = some (.data 0) ∧
    respOf (step (given (idle (scalarRegs 0x320 0 0) []) [.csr (.read 4 0x07C)])) = some (.data 0) := by decide +kernel

theorem test_status_clearing :
    statusOf (step { given State.reset [.csr (.write 4 0x008 2)] with done := true, err := true, errcode := 3 })
      = some 0x304 ∧
    statusOf (step { given State.reset [.csr (.write 4 0x008 4)] with err := true, errcode := 3 }) = some 0 := by
  decide +kernel

theorem test_irq_after_completion :
    (nextOf (step { flying .nop OpRegs.reset [] with ie := true })).map (·.irq) = some true ∧
    (nextOf (step { given State.reset [.csr (.write 4 0x008 2)] with ie := true, done := true })).map (·.irq)
      = some false := by decide +kernel

theorem test_soft_reset :
    (nextOf (step { given (flying .mTranspose (matrixRegs 0x31 0 0 2 1 1 0) (words [7])) [.csr (.write 4 0x004 2)]
        with ie := true })).map (fun t => (t.ie, t.statusWord, t.regs, t.draws, Memory.lookup t.lmem 0)) =
      some (false, 0, OpRegs.reset, 2, some 7) := by decide +kernel

/-- A word written by the host reads back in parts, little-endian (20_memory.md R61, R68). -/
theorem test_lmem_little_endian :
    ((nextOf (step (given State.reset [.lmem (.write 4 0 0x44332211)]))).bind fun t =>
      respOf (step (given t [.lmem (.read 2 2)]))) = some (.data 0x4433) := by decide +kernel

/-- Two elements that M_TRANSPOSE wrote read back as one 32-bit word, element k in the low half (20_memory.md R61). -/
theorem test_lmem_reads_elements :
    ((nextOf (complete .mTranspose (matrixRegs 0x20 0 0 0x10 1 2 0) (words [0x1234, 0x5678]))).bind fun t =>
      respOf (step (given t [.lmem (.read 4 0x10)]))) = some (.data 0x56781234) := by decide +kernel

theorem test_bus_errors :
    respOf (step (given State.reset [.lmem (.read 2 1)])) = some .busError ∧
    respOf (step (given State.reset [.lmem (.read 4 4096)])) = some .busError ∧
    respOf (step (given State.reset [.csr (.read 4 0x002)])) = some .busError ∧
    respOf (step (given State.reset [.csr (.read 2 0x000)])) = some .busError := by decide +kernel

/-- P4 step 10, outcome (a): a CMD write while busy, then the completion. -/
theorem test_race_busy :
    ((nextOf (step (given (flying .nop OpRegs.reset []) [.csr (.write 4 0x010 0)]))).bind fun t =>
      statusOf (step t)) = some 0x706 := by decide +kernel

/-- The host's two questions, on one row (log 11): the decoder gives the row, and the very next step runs it. -/
theorem test_withFetchWord :
    statusOf (step (State.reset.withFetchWord 32 0x10)) = some 0x304 ∧
    statusOf (step (State.reset.withFetchWord 32 0x00)) = some 1 := by decide +kernel

/-! ### Witnesses: states and operands that meet all the hypotheses of a statement together

A statement with several clauses has a witness for each clause, at the edges of its range. -/

/-- The block out of reset meets `running`. -/
theorem witness_running : State.reset.running := ⟨rfl, rfl⟩

theorem witness_CmdWriteRunsDecodedCommand :
    let s := given State.reset [.csr (.write 4 0x010 0x35)]
    s.running ∧ s.busy = false ∧ s.inputs = .csr (.write 4 0x010 0x35) :: [] ∧ decode 0x35 = .ok .cLoadLe := by
  exact ⟨⟨rfl, rfl⟩, rfl, rfl, by decide⟩

theorem witness_EngineTurnRunsCommandInFlight :
    let s := flying .eAdd (scalarRegs 0x20 1 2) []
    let L := latch .eAdd (scalarRegs 0x20 1 2)
    (s.running ∧ s.inflight = some L ∧ s.inputs = []) ∧
    ((given s [.engine]).running ∧ (given s [.engine]).inflight = some L ∧
      (given s [.engine]).inputs = .engine :: []) ∧
    (State.reset.running ∧ State.reset.inflight = none ∧ State.reset.inputs = [] ∧
      (given State.reset [.engine]).inputs = .engine :: []) := by
  exact ⟨⟨⟨rfl, rfl⟩, rfl, rfl⟩, ⟨⟨rfl, rfl⟩, rfl, rfl⟩, ⟨rfl, rfl⟩, rfl, rfl, rfl⟩

theorem witness_RefusedCmdWriteOnlyRecordsError :
    let busy := given (flying .nop OpRegs.reset []) [.csr (.write 4 0x010 0x100)]
    let free := given State.reset [.csr (.write 4 0x010 0x36)]
    (busy.running ∧ busy.inputs = .csr (.write 4 0x010 0x100) :: [] ∧ busy.busy = true) ∧
    (free.running ∧ free.inputs = .csr (.write 4 0x010 0x36) :: [] ∧ free.busy = false ∧
      ∃ e, decode 0x36 = .error e) := by
  exact ⟨⟨⟨rfl, rfl⟩, rfl, rfl⟩, ⟨rfl, rfl⟩, rfl, rfl, .reservedOpcode, by decide⟩

theorem witness_IssueLatchesOperands :
    let s := idle (matrixRegs 0x20 0 8 0xFFC 1 2 0) []
    s.inflight = none ∧ issueCheck s.params.lmemSize { op := .mAdd, regs := s.regs } = none := by
  exact ⟨rfl, by decide +kernel⟩

/-- One state for each code that an issue can raise after decoding. -/
theorem witness_RefusedIssueOnlyRecordsError :
    let check := fun (i : Instr) (r : OpRegs) (e : ErrCode) =>
      (idle r []).inflight = none ∧ issueCheck (idle r []).params.lmemSize { op := i, regs := (idle r []).regs } = some e
    check .eEnc (scalarRegs 0x50 0 0) .badCfg ∧ check .mAdd OpRegs.reset .badDim ∧
    check .mAdd (matrixRegs 0x20 1 2 4 1 1 0) .misaligned ∧
    check .mAdd (matrixRegs 0x20 0 8 0xFFE 1 2 0) .outOfRange ∧
    check .mAdd (matrixRegs 0x20 0 8 2 1 2 0) .overlap := by decide +kernel

theorem witness_ScalarIssueChecks :
    let ok := fun (i : Instr) (cfg : Word) => issueCheck 4096 (latch i (scalarRegs cfg 0 0)) = none
    let bad := fun (i : Instr) (cfg : Word) => issueCheck 4096 (latch i (scalarRegs cfg 0 0)) = some .badCfg
    ok .nop 0x370 ∧ ok .eCteq 0x370 ∧ ok .eEnc 0x20 ∧ ok .eDec 0x40 ∧ bad .eEnc 0x10 ∧ bad .eDec 0x50 ∧
    ok .sSample 0x270 ∧ bad .sSample 0x320 := by decide +kernel

theorem witness_MatrixIssueChecks :
    let check := fun (i : Instr) (r : OpRegs) => issueCheck 4096 (latch i r)
    check .mAdd (matrixRegs 0x20 0 8 0xFFC 1 2 0) = none ∧ check .mSub (matrixRegs 0x20 0 8 0 1 2 0) = none ∧
    check .mAdd (matrixRegs 0x20 0 8 0xFFE 1 2 0) = some .outOfRange ∧
    check .mSub (matrixRegs 0x20 0 8 2 1 2 0) = some .overlap ∧
    check .mMul (matrixRegs 0x20 0 8 12 2 1 2) = none ∧ check .mMul (matrixRegs 0x20 0 8 0 2 1 2) = some .overlap ∧
    check .mMul (matrixRegs 0x20 0 8 12 2 1 0) = some .badDim ∧
    check .mTranspose (matrixRegs 0x20 0 0 4 1 2 0) = none ∧
    check .mTranspose (matrixRegs 0x20 0 0 2 1 2 0) = some .overlap ∧
    check .mEq (matrixRegs 0x20 0xFFC 0xFFC 1 1 2 0) = none ∧
    check .mCteq (matrixRegs 0x20 0 0xFFE 1 1 2 0) = some .outOfRange := by decide +kernel

theorem witness_SamplerAndCodecIssueChecks :
    let check := fun (i : Instr) (r : OpRegs) => issueCheck 4096 (latch i r)
    check .sSampleMat (matrixRegs 0x20 1 0 2 1 1 0) = some .overlap ∧
    check .sSampleMat (matrixRegs 0x320 0 0 0 1 1 0) = some .badCfg ∧
    check .cLoadLe (matrixRegs 0x320 2 0 2 1 1 0) = none ∧
    check .cStoreLe (matrixRegs 0x20 0 0 0xFFF 1 1 0) = some .outOfRange ∧
    check .cStoreLe (matrixRegs 0x20 0 0 3 1 1 0) = none ∧
    check .cEncode (matrixRegs 0x30 0 0 4 1 8 0) = none ∧ check .cEncode (matrixRegs 0x30 0 0 4 1 7 0) = some .badDim ∧
    check .cDecode (matrixRegs 0x30 0 0 16 1 8 0) = none ∧ check .cDecode (matrixRegs 0x30 0 0 15 1 8 0) = some .overlap ∧
    check .cPack (matrixRegs 0x20 0 0 0xFFE 1 1 0) = none ∧ check .cPack (matrixRegs 0x20 0 0 1 1 1 0) = some .overlap ∧
    check .cUnpack (matrixRegs 0x20 0xFFE 0 0 1 1 0) = none ∧
    check .cUnpack (matrixRegs 0x20 0xFFF 0 0 1 1 0) = some .outOfRange := by decide +kernel

theorem witness_NopOnlySetsDone :
    let s := flying .nop OpRegs.reset []
    s.inflight = some (latch .nop OpRegs.reset) ∧ (latch .nop OpRegs.reset).op = .nop := ⟨rfl, rfl⟩

/-- For each of the five commands, with operands at the edges of Z_q. -/
theorem witness_RingOperationsWrapModQ :
    ∀ i ∈ [Instr.eRed, .eAdd, .eSub, .eNeg, .eMul],
      (flying i (scalarRegs 0x21 0xFFFFFFFF 0) []).inflight = some (latch i (scalarRegs 0x21 0xFFFFFFFF 0)) ∧
      (latch i (scalarRegs 0x21 0xFFFFFFFF 0)).op = i := by
  exact fun i _ => ⟨rfl, rfl⟩

theorem witness_ElementEncodeAndDecode :
    ∀ i ∈ [Instr.eEnc, .eDec], ∀ cfg ∈ [0x20, 0x30, 0x41],
      let r := scalarRegs (BitVec.ofNat 32 cfg) 0x7000 0
      let L := latch i r
      (flying i r []).inflight = some L ∧ (L.B = 2 ∨ L.B = 3 ∨ L.B = 4) ∧ L.op = i := by
  decide +kernel

theorem witness_ElementEqualityResults :
    ∀ i ∈ [Instr.eEq, .eCteq],
      (flying i (scalarRegs 0x20 0x8001 1) []).inflight = some (latch i (scalarRegs 0x20 0x8001 1)) ∧
      (latch i (scalarRegs 0x20 0x8001 1)).op = i := by
  exact fun i _ => ⟨rfl, rfl⟩

/-- Both ends of the tolerance (95_test_vectors.md S13). -/
theorem witness_DecodeToleratesNoise :
    (0 < 2 ^ 2 ∧ -2 ^ (15 - 2 - 1) ≤ (-4096 : Int) ∧ (-4096 : Int) < 2 ^ (15 - 2 - 1)) ∧
    (15 < 2 ^ 4 ∧ -2 ^ (16 - 4 - 1) ≤ (2047 : Int) ∧ (2047 : Int) < 2 ^ (16 - 4 - 1)) := by decide

/-- Registers and LMEM with one 2×2 matrix command ready, in place. -/
def readyXY (i : Instr) : State := flying i (matrixRegs 0x20 0 8 0 2 2 0) pairXY

/-- Its latched copy. -/
def latchXY (i : Instr) : Latched := latch i (matrixRegs 0x20 0 8 0 2 2 0)

theorem witness_MAddWritesSums :
    (readyXY .mAdd).ready .mAdd (latchXY .mAdd) ∧ 3 < (latchXY .mAdd).R * (latchXY .mAdd).C ∧
    storedElem (readyXY .mAdd).lmem (latchXY .mAdd).q ((latchXY .mAdd).src0 + 2 * 3) = some 3 ∧
    storedElem (readyXY .mAdd).lmem (latchXY .mAdd).q ((latchXY .mAdd).src1 + 2 * 3) = some 4 := by
  exact ⟨⟨rfl, rfl, by decide +kernel⟩, by decide +kernel, by decide +kernel, by decide +kernel⟩

theorem witness_MSubWritesDifferences :
    (readyXY .mSub).ready .mSub (latchXY .mSub) ∧ 0 < (latchXY .mSub).R * (latchXY .mSub).C ∧
    storedElem (readyXY .mSub).lmem (latchXY .mSub).q ((latchXY .mSub).src0 + 2 * 0) = some 0x7FFF ∧
    storedElem (readyXY .mSub).lmem (latchXY .mSub).q ((latchXY .mSub).src1 + 2 * 0) = some 1 := by
  exact ⟨⟨rfl, rfl, by decide +kernel⟩, by decide +kernel, by decide +kernel, by decide +kernel⟩

/-- X = [[7FFF, 7FFF], [4000, 2]], Y = [[7FFF], [3]]; the last row of X and the column of Y. -/
theorem witness_MMulWritesInnerProducts :
    let r := matrixRegs 0x20 0 8 0x40 2 1 2
    let s := flying .mMul r (words [0x7FFF, 0x7FFF, 0x4000, 2, 0x7FFF, 3])
    let L := latch .mMul r
    s.ready .mMul L ∧ 1 < L.R ∧ 0 < L.C ∧
    (∀ k < L.K, storedElem s.lmem L.q (L.src0 + 2 * (1 * L.K + k)) = some ([0x4000, 2].getD k 0)) ∧
    (∀ k < L.K, storedElem s.lmem L.q (L.src1 + 2 * (k * L.C + 0)) = some ([0x7FFF, 3].getD k 0)) := by
  exact ⟨⟨rfl, rfl, by decide +kernel⟩, by decide +kernel, by decide +kernel, by decide +kernel, by decide +kernel⟩

theorem witness_MTransposeSwapsIndices :
    let r := matrixRegs 0x20 0 0 12 2 3 0
    let s := flying .mTranspose r (words [1, 2, 3, 4, 5, 6])
    let L := latch .mTranspose r
    s.ready .mTranspose L ∧ 1 < L.R ∧ 2 < L.C ∧
    storedElem s.lmem L.q (L.src0 + 2 * (1 * L.C + 2)) = some 6 := by
  exact ⟨⟨rfl, rfl, by decide +kernel⟩, by decide +kernel, by decide +kernel, by decide +kernel⟩

/-- Both commands, on matrices that differ only in bit 15. -/
theorem witness_MatrixEqualityResults :
    let r := matrixRegs 0x20 0 4 0 1 2 0
    ∀ i ∈ [Instr.mEq, .mCteq],
      let s := flying i r (words [1, 2, 0x8001, 2])
      let L := latch i r
      (s.inflight = some L ∧ L.op = i ∧ issueCheck s.params.lmemSize L = none) ∧
      (∀ k < L.R * L.C, storedElem s.lmem L.q (L.src0 + 2 * k) = some (k + 1)) ∧
      (∀ k < L.R * L.C, storedElem s.lmem L.q (L.src1 + 2 * k) = some (k + 1)) := by
  decide +kernel

/-- (X + Y) at 0x40, then the difference in place there. -/
theorem witness_SubtractUndoesAdd :
    let r := matrixRegs 0x20 0 8 0x40 2 2 0
    let r' := matrixRegs 0x20 0x40 8 0x40 2 2 0
    let L := latch .mAdd r
    let M := latch .mSub r'
    let s := flying .mAdd r pairXY
    ∃ t v, s.ready .mAdd L ∧ exec .mAdd s = .next t ∧ (flying .mSub r' t.lmem).ready .mSub M ∧
      (flying .mSub r' t.lmem).lmem = t.lmem ∧ M.q = L.q ∧ M.R * M.C = L.R * L.C ∧ M.src0 = L.dst ∧
      M.src1 = L.src1 ∧ (L.src1 + 2 * (L.R * L.C) ≤ L.dst ∨ L.dst + 2 * (L.R * L.C) ≤ L.src1) ∧
      exec .mSub (flying .mSub r' t.lmem) = .next v ∧ 3 < L.R * L.C ∧
      storedElem s.lmem L.q (L.src0 + 2 * 3) = some 3 ∧ storedElem s.lmem L.q (L.src1 + 2 * 3) = some 4 := by
  exact ⟨_, _, ⟨rfl, rfl, by decide +kernel⟩, rfl, ⟨rfl, rfl, by decide +kernel⟩, rfl, rfl, rfl, rfl, rfl,
    by decide +kernel, rfl, by decide +kernel, by decide +kernel, by decide +kernel⟩

theorem witness_TransposeTwiceIsIdentity :
    let r := matrixRegs 0x20 0 0 12 2 3 0
    let r' := matrixRegs 0x20 12 0 0 3 2 0
    let L := latch .mTranspose r
    let M := latch .mTranspose r'
    let s := flying .mTranspose r (words [1, 2, 3, 4, 5, 6])
    ∃ t v, s.ready .mTranspose L ∧ exec .mTranspose s = .next t ∧
      (flying .mTranspose r' t.lmem).ready .mTranspose M ∧ (flying .mTranspose r' t.lmem).lmem = t.lmem ∧
      M.q = L.q ∧ M.R = L.C ∧ M.C = L.R ∧ M.src0 = L.dst ∧
      exec .mTranspose (flying .mTranspose r' t.lmem) = .next v ∧ 5 < L.R * L.C ∧
      storedElem s.lmem L.q (L.src0 + 2 * 5) = some 6 := by
  exact ⟨_, _, ⟨rfl, rfl, by decide +kernel⟩, rfl, ⟨rfl, rfl, by decide +kernel⟩, rfl, rfl, rfl, rfl, rfl, rfl,
    by decide +kernel, by decide +kernel⟩

theorem witness_SSampleCountsExceededEntries :
    let r := scalarRegs 0x221 0x476F 0
    let s := flying .sSample r []
    s.params.wellFormed = true ∧ s.inflight = some (latch .sSample r) ∧ (latch .sSample r).op = .sSample ∧
    (latch .sSample r).regs.cfg.pset ≠ 3 := by decide +kernel

theorem witness_SSampleMatSamplesEveryEntry :
    let r := matrixRegs 0x20 0 0 0 1 4 0
    let s := flying .sSampleMat r (bytes [0x00, 0x00, 0x48, 0x24, 0x49, 0x24, 0xFF, 0xFF])
    let L := latch .sSampleMat r
    s.params.wellFormed = true ∧ s.ready .sSampleMat L ∧ 3 < L.R * L.C ∧
    storedWord s.lmem (L.src0 + 2 * 3) = some 0xFFFF := by
  exact ⟨by decide, ⟨rfl, rfl, by decide +kernel⟩, by decide +kernel, by decide +kernel⟩

/-- Each table, at its first and last entry. -/
theorem witness_CdfTableFromFrequencies :
    let p := Config.Params.default
    (((0 : BitVec 2) = 0 ∧ p.chi640 = p.chi640) ∧ 12 < p.chi640.length) ∧
    (((1 : BitVec 2) = 1 ∧ p.chi976 = p.chi976) ∧ 10 < p.chi976.length) ∧
    (((2 : BitVec 2) = 2 ∧ p.chi1344 = p.chi1344) ∧ 0 < p.chi1344.length) := by decide

/-- The longest table that R9 allows. -/
theorem witness_SampleSignSymmetryAndRange : (List.replicate 16 1).length < 2 ^ 15 := by decide

theorem witness_CEncodePlacesMessageBits :
    let r := matrixRegs 0x30 0 0 0x10 1 8 0
    let s := flying .cEncode r (bytes [0xFF, 0x00, 0xFF])
    let L := latch .cEncode r
    s.ready .cEncode L ∧ 2 < L.R * L.C ∧
    (∀ l < L.B, Memory.lookup s.lmem (L.src0 + (2 * L.B + l) / 8) = some ([0xFF, 0xFF, 0x00].getD l 0)) := by
  exact ⟨⟨rfl, rfl, by decide +kernel⟩, by decide +kernel, by decide +kernel⟩

theorem witness_CDecodeLaysOutRoundedBits :
    let r := matrixRegs 0x31 0 0 0x21 1 8 0
    let s := flying .cDecode r (words [0x0FFF, 0x1000, 0x4800, 0x5FFF, 0x8000, 0xAFFF, 0xB000, 0xE005])
    let L := latch .cDecode r
    s.ready .cDecode L ∧ 7 < L.R * L.C ∧ 2 < L.B ∧ storedElem s.lmem L.q (L.src0 + 2 * 7) = some 0xE005 := by
  exact ⟨⟨rfl, rfl, by decide +kernel⟩, by decide +kernel, by decide +kernel, by decide +kernel⟩

/-- Three elements of 15 bits: the last bit of the last element, and the three padding bits 45 to 47. -/
theorem witness_CPackLaysOutElementBits :
    let r := matrixRegs 0x20 0 0 0x21 1 3 0
    let s := flying .cPack r (words [1, 2, 0x8003])
    let L := latch .cPack r
    s.ready .cPack L ∧
    (2 < L.R * L.C ∧ 14 < L.D ∧ storedElem s.lmem L.q (L.src0 + 2 * 2) = some 3) ∧
    (L.R * L.C * L.D ≤ 45 ∧ 47 < 8 * ((L.R * L.C * L.D + 7) / 8)) := by
  exact ⟨⟨rfl, rfl, by decide +kernel⟩, by decide +kernel, by decide +kernel⟩

theorem witness_CUnpackReadsElementBits :
    let r := matrixRegs 0x20 0 0 0x20 1 1 0
    let s := flying .cUnpack r (bytes [0xFF, 0xFF])
    let L := latch .cUnpack r
    s.ready .cUnpack L ∧ 0 < L.R * L.C ∧
    (∀ l < L.D, Memory.lookup s.lmem (L.src0 + (0 * L.D + l) / 8) = some 0xFF) := by
  exact ⟨⟨rfl, rfl, by decide +kernel⟩, by decide +kernel, by decide +kernel⟩

/-- C_STORE_LE to an odd base, C_LOAD_LE in place. -/
theorem witness_RawLittleEndianStoreAndLoad :
    let r := matrixRegs 0x20 0 0 0x11 1 1 0
    let r' := matrixRegs 0x20 0 0 0 1 1 0
    let s := flying .cStoreLe r (words [0x9234])
    let u := flying .cLoadLe r' (words [0x9234])
    (s.ready .cStoreLe (latch .cStoreLe r) ∧ storedElem s.lmem (latch .cStoreLe r).q (0 + 2 * 0) = some 0x1234) ∧
    (u.ready .cLoadLe (latch .cLoadLe r') ∧ Memory.lookup u.lmem (0 + 2 * 0) = some 0x34 ∧
      Memory.lookup u.lmem (0 + 2 * 0 + 1) = some 0x92) := by
  exact ⟨⟨⟨rfl, rfl, by decide +kernel⟩, by decide +kernel⟩, ⟨rfl, rfl, by decide +kernel⟩, by decide +kernel,
    by decide +kernel⟩

theorem witness_UnpackOfPackIsIdentity :
    let r := matrixRegs 0x20 0 0 0x11 1 2 0
    let r' := matrixRegs 0x20 0x11 0 0 2 1 0
    let L := latch .cPack r
    let M := latch .cUnpack r'
    let s := flying .cPack r (words [0x7FFC, 0xC008])
    ∃ t v, s.ready .cPack L ∧ exec .cPack s = .next t ∧ (flying .cUnpack r' t.lmem).ready .cUnpack M ∧
      (flying .cUnpack r' t.lmem).lmem = t.lmem ∧ M.D = L.D ∧ M.R * M.C = L.R * L.C ∧ M.src0 = L.dst ∧
      exec .cUnpack (flying .cUnpack r' t.lmem) = .next v ∧ 1 < L.R * L.C ∧
      storedElem s.lmem L.q (L.src0 + 2 * 1) = some 0x4008 := by
  exact ⟨_, _, ⟨rfl, rfl, by decide +kernel⟩, rfl, ⟨rfl, rfl, by decide +kernel⟩, rfl, rfl, rfl, rfl, rfl,
    by decide +kernel, by decide +kernel⟩

theorem witness_DecodeOfEncodeIsIdentity :
    let r := matrixRegs 0x31 0 0 0x10 1 8 0
    let r' := matrixRegs 0x31 0x10 0 0x21 2 4 0
    let L := latch .cEncode r
    let M := latch .cDecode r'
    let s := flying .cEncode r (bytes [0x88, 0xC6, 0xFA])
    ∃ t v, s.ready .cEncode L ∧ exec .cEncode s = .next t ∧ (flying .cDecode r' t.lmem).ready .cDecode M ∧
      (flying .cDecode r' t.lmem).lmem = t.lmem ∧ M.D = L.D ∧ M.B = L.B ∧ M.R * M.C = L.R * L.C ∧
      M.src0 = L.dst ∧ exec .cDecode (flying .cDecode r' t.lmem) = .next v ∧
      Memory.written s.lmem L.src0 (L.R * L.C * L.B / 8) = true ∧ 2 < L.R * L.C * L.B / 8 := by
  exact ⟨_, _, ⟨rfl, rfl, by decide +kernel⟩, rfl, ⟨rfl, rfl, by decide +kernel⟩, rfl, rfl, rfl, rfl, rfl, rfl,
    by decide +kernel, by decide +kernel⟩

/-- A command idle, completing, and turned away, and M_MUL completing. An address outside the destination is 0x50. -/
theorem witness_FrameOfEveryCommand :
    (∃ t, exec .mAdd (idle (matrixRegs 0x20 0 8 0 2 2 0) pairXY) = .next t) ∧
    (∃ t, exec .mAdd (readyXY .mAdd) = .next t ∧ (readyXY .mAdd).ready .mAdd (latchXY .mAdd) ∧
      (latchXY .mAdd).dest = some (elemRegion 0 4) ∧ (elemRegion 0 4).covers 0x50 = false) ∧
    (∃ t, exec .nop (readyXY .mAdd) = .next t) ∧
    (let r := matrixRegs 0x20 0 8 0x40 2 1 2
     ∃ t, exec .mMul (flying .mMul r []) = .next t ∧ (flying .mMul r []).ready .mMul (latch .mMul r)) := by
  exact ⟨⟨_, rfl⟩, ⟨_, rfl, ⟨rfl, rfl, by decide +kernel⟩, rfl, rfl⟩, ⟨_, rfl⟩, ⟨_, rfl, rfl, rfl, by decide +kernel⟩⟩

/-- A completion sets DONE; a STATUS write clears it; with an access stalled, a CTRL write that waits is not taken. -/
theorem witness_DoneSetByCompletionOnly :
    (∃ t, step (flying .nop OpRegs.reset []) = .next t ∧ (flying .nop OpRegs.reset []).busy = true ∧ t.busy = false ∧
      (flying .nop OpRegs.reset []).done = false ∧ t.done = true) ∧
    (∃ t, step { given State.reset [.csr (.write 4 0x008 2)] with done := true } = .next t ∧ t.done = false) ∧
    (let s := { given (flying .nop OpRegs.reset []) [.csr (.write 4 0x004 2)] with stalled := some (.read 1 0) }
     ∃ t, step s = .next t ∧ s.busy = true ∧ t.busy = false ∧ t.done = true) := by
  exact ⟨⟨_, rfl, rfl, rfl, rfl, rfl⟩, ⟨_, rfl, rfl⟩, ⟨_, rfl, rfl, rfl, rfl⟩⟩

theorem witness_FirstErrorCodeIsKept :
    let s := { given State.reset [.csr (.write 4 0x010 0x100)] with err := true, errcode := 3 }
    ∃ t, step s = .next t ∧ s.err = true ∧ t.err = true := ⟨_, rfl, rfl, rfl⟩

theorem witness_ResChangesOnlyAtCompletionOrReset :
    let s := flying .eRed (scalarRegs 0x20 5 0) []
    ∃ t, step s = .next t ∧ t.res = 5 ∧ t.res ≠ s.res := by
  exact ⟨_, rfl, by decide +kernel, by decide +kernel⟩

/-- A register write while the command is in flight. -/
theorem witness_LatchedCommandIsNeverChanged :
    let s := given (flying .nop OpRegs.reset []) [.csr (.write 4 0x02C 7)]
    ∃ t, step s = .next t ∧ s.inflight = some (latch .nop OpRegs.reset) ∧ t.inflight = s.inflight := by
  exact ⟨_, rfl, rfl, rfl⟩

theorem witness_CdfRomIsReadOnly :
    ∃ t, step (given State.reset [.csr (.write 4 0x040 7)]) = .next t := ⟨_, rfl⟩

theorem witness_LmemIsStillWhileBusy :
    let s := given (readyXY .mAdd) [.lmem (.write 1 0 7)]
    ∃ t, step s = .next t ∧ s.busy = true ∧ t.busy = true := ⟨_, rfl, rfl, rfl⟩

/-- Two blocks that differ in a byte outside the sources. -/
theorem witness_CompletionReadsOnlyItsSources :
    let s := readyXY .mAdd
    let s' := { readyXY .mAdd with lmem := Memory.set pairXY 0x50 1 }
    let L := latchXY .mAdd
    ∃ t t', s.ready .mAdd L ∧ s'.ready .mAdd L ∧ s'.params = s.params ∧ s'.draws = s.draws ∧ s'.res = s.res ∧
      (∀ r ∈ L.sources, ∀ a, r.covers a = true → Memory.lookup s'.lmem a = Memory.lookup s.lmem a) ∧
      exec .mAdd s = .next t ∧ exec .mAdd s' = .next t' := by
  refine ⟨_, _, ⟨rfl, rfl, by decide +kernel⟩, ⟨rfl, rfl, by decide +kernel⟩, rfl, rfl, rfl, ?_, rfl, rfl⟩
  have h : ∀ r ∈ (latchXY .mAdd).sources, r.base + r.len ≤ 0x50 := by decide +kernel
  have hl : ∀ a < 0x50, Memory.lookup (Memory.set pairXY 0x50 1) a = Memory.lookup pairXY a := by decide +kernel
  intro r hr a ha
  have := h r hr
  simp only [Region.covers, Bool.and_eq_true, decide_eq_true_eq] at ha
  exact hl a (by omega)

/-- PSET = 3, at CDF_LEN, CDF_T0 and CDF_T15. -/
theorem witness_RegisterReads_pset_3 :
    ∀ offset ∈ [0x03C, 0x040 + 4 * 0, 0x040 + 4 * 15],
      let s := given (idle (scalarRegs 0x320 0 0) []) [.csr (.read 4 offset)]
      s.running ∧ s.inputs = .csr (.read 4 offset) :: [] ∧ s.regs.cfg.pset = 3 := by
  exact fun _ _ => ⟨⟨rfl, rfl⟩, rfl, rfl⟩

/-- Every register offset, both ends of CDF_Tz, and both ends of the reserved range; also while BUSY = 1. -/
theorem witness_RegisterReads :
    ∀ offset ∈ [0x000, 0x004, 0x008, 0x00C, 0x010, 0x014, 0x018, 0x01C, 0x020, 0x024, 0x028, 0x02C, 0x030, 0x034,
        0x038, 0x03C, 0x040 + 4 * 0, 0x040 + 4 * 15, 0x080, 0xFFC],
      let s := given (flying .nop OpRegs.reset []) [.csr (.read 4 offset)]
      s.running ∧ s.inputs = .csr (.read 4 offset) :: [] := by
  exact fun _ _ => ⟨⟨rfl, rfl⟩, rfl⟩

theorem witness_OperandRegisterWrites :
    ∀ offset ∈ [0x00C, 0x014, 0x018, 0x01C, 0x020, 0x024, 0x028, 0x02C, 0x030],
      let s := given (flying .nop OpRegs.reset []) [.csr (.write 4 offset 0xFFFFFFFF)]
      s.running ∧ s.inputs = .csr (.write 4 offset 0xFFFFFFFF) :: [] := by
  exact fun _ _ => ⟨⟨rfl, rfl⟩, rfl⟩

theorem witness_ReadOnlyAndReservedWritesIgnored :
    ∀ offset ∈ [0x000, 0x034, 0x07C, 0x080, 0xFFC],
      let s := given State.reset [.csr (.write 4 offset 1)]
      (s.inReset = false ∧ s.stalled = none) ∧ s.inputs = .csr (.write 4 offset 1) :: [] ∧ offset % 4 = 0 ∧
      (offset = 0x000 ∨ (0x034 ≤ offset ∧ offset ≤ 0xFFC)) := by decide +kernel

/-- A narrow access, a misaligned one, the first offset past the block; and the same for LMEM. -/
theorem witness_InadmissibleAccessIsBusError :
    (∀ a ∈ [(2, 0), (4, 2), (4, 0x1000)],
      (given State.reset [.csr (.read a.1 a.2)]).running ∧
      (given State.reset [.csr (.read a.1 a.2)]).inputs = .csr (.read a.1 a.2) :: [] ∧
      (given State.reset [.csr (.write a.1 a.2 1)]).inputs = .csr (.write a.1 a.2 1) :: []) ∧
    (∀ a ∈ [(2, 0), (4, 2), (4, 0x1000)], a.1 ≠ 4 ∨ a.2 % 4 ≠ 0 ∨ 0x1000 ≤ a.2) ∧
    (∀ a ∈ [(3, 0), (0, 0), (2, 1), (4, 4096), (1, 4096)],
      (a.1 ≠ 1 ∧ a.1 ≠ 2 ∧ a.1 ≠ 4) ∨ a.2 % a.1 ≠ 0 ∨ State.reset.params.lmemSize < a.2 + a.1) ∧
    (∀ a : Nat × Nat, (given State.reset [.lmem (.read a.1 a.2)]).busy = false ∧
      (given State.reset [.lmem (.read a.1 a.2)]).inputs = .lmem (.read a.1 a.2) :: [] ∧
      (given State.reset [.lmem (.write a.1 a.2 1)]).inputs = .lmem (.write a.1 a.2 1) :: []) := by
  exact ⟨fun _ _ => ⟨⟨rfl, rfl⟩, rfl, rfl⟩, by decide, by decide, fun _ => ⟨rfl, rfl, rfl⟩⟩

/-- Each width, at the last address of LMEM it can reach; with the same read next, and with another input next. -/
theorem witness_HostLmemWriteReadsBack :
    ∀ n ∈ [1, 2, 4],
      let s := given State.reset [.lmem (.write n (4096 - n) 7), .lmem (.read n (4096 - n))]
      (s.inReset = false ∧ s.stalled = none) ∧ s.busy = false ∧ (n = 1 ∨ n = 2 ∨ n = 4) ∧ (4096 - n) % n = 0 ∧
      4096 - n + n ≤ s.params.lmemSize ∧
      s.inputs = .lmem (.write n (4096 - n) 7) :: .lmem (.read n (4096 - n)) :: [] ∧
      (given s [.lmem (.write n (4096 - n) 7), .engine]).inputs = .lmem (.write n (4096 - n) 7) :: .engine :: [] := by
  decide +kernel

/-- Each width at the last address it can reach, where the last byte of LMEM was written and the others were not. -/
theorem witness_HostLmemReadAnswersBytes :
    ∀ n ∈ [1, 2, 4],
      let s := given (idle OpRegs.reset [(4095, 7)]) [.lmem (.read n (4096 - n))]
      (s.inReset = false ∧ s.stalled = none) ∧ s.busy = false ∧ (n = 1 ∨ n = 2 ∨ n = 4) ∧ (4096 - n) % n = 0 ∧
      4096 - n + n ≤ s.params.lmemSize ∧ s.inputs = .lmem (.read n (4096 - n)) :: [] ∧
      Memory.lookup s.lmem 4095 = some 7 ∧ Memory.lookup s.lmem 4094 = none := by decide +kernel

/-- The five clauses: held, the completion first, the same by the engine's turn, performed, and answered at reset. -/
theorem witness_LmemAccessStallsWhileBusy :
    let a := LmemAccess.read 1 0
    let busy := flying .nop OpRegs.reset []
    let held := { busy with stalled := some a }
    let free := { State.reset with stalled := some a }
    let hit := given held [.resetAssert]
    ((given busy [.lmem a]).inReset = false ∧ (given busy [.lmem a]).stalled = none ∧
      (given busy [.lmem a]).busy = true ∧ (given busy [.lmem a]).inputs = .lmem a :: []) ∧
    (held.inReset = false ∧ held.stalled = some a ∧ held.inflight = some (latch .nop OpRegs.reset) ∧
      ∀ i rest, held.inputs = i :: rest → i ≠ .resetAssert ∧ i ≠ .engine) ∧
    ((given held [.engine]).inReset = false ∧ (given held [.engine]).stalled = some a ∧
      (given held [.engine]).inflight = some (latch .nop OpRegs.reset) ∧
      (given held [.engine]).inputs = .engine :: []) ∧
    (free.stalled = some a ∧ free.busy = false ∧ ∀ rest, free.inputs ≠ .resetAssert :: rest) ∧
    (hit.inReset = false ∧ hit.stalled = some a ∧ hit.inputs = .resetAssert :: []) := by
  refine ⟨⟨rfl, rfl, rfl, rfl⟩, ⟨rfl, rfl, rfl, ?_⟩, ⟨rfl, rfl, rfl, rfl⟩, ⟨rfl, rfl, ?_⟩, rfl, rfl, rfl⟩
  · intro i rest h
    cases h
  · intro rest h
    cases h

theorem witness_StatusAndCtrlWrites :
    let ctrl := given State.reset [.csr (.write 4 0x004 0x00000001)]
    let status := given State.reset [.csr (.write 4 0x008 0x00000006)]
    (ctrl.running ∧ ctrl.inputs = .csr (.write 4 0x004 0x00000001) :: [] ∧ (0x00000001 : Word).getLsbD 1 = false) ∧
    (status.running ∧ status.inputs = .csr (.write 4 0x008 0x00000006) :: []) := by
  exact ⟨⟨⟨rfl, rfl⟩, rfl, rfl⟩, ⟨rfl, rfl⟩, rfl⟩

/-- With and without bit 2; and with no command in flight. -/
theorem witness_CompletionWinsOverClear :
    ∀ n ∈ [6, 2],
      let w : Word := BitVec.ofNat 32 n
      let s := given (flying .nop OpRegs.reset []) [.statusWriteAtCompletion w]
      (s.inReset = false ∧ s.stalled = none) ∧
      (s.inflight = some (latch .nop OpRegs.reset) ∧ (latch .nop OpRegs.reset).op = .nop ∧
        issueCheck s.params.lmemSize (latch .nop OpRegs.reset) = none) ∧
      s.inputs = .statusWriteAtCompletion w :: [] ∧ (w.getLsbD 2 = true ∨ w.getLsbD 2 = false) ∧
      (given State.reset [.statusWriteAtCompletion w]).busy = false := by
  decide +kernel

/-- A command with a destination of 4 bytes at 12 in flight; 11 and 16 lie beside it. -/
theorem witness_SoftResetAbandonsCommand :
    let r := matrixRegs 0x31 0 0 12 1 2 0
    let s := given (flying .mTranspose r (words [7, 8])) [.csr (.write 4 0x004 2)]
    s.running ∧ s.inputs = .csr (.write 4 0x004 2) :: [] ∧ (2 : Word).getLsbD 1 = true ∧
    s.inflight = some (latch .mTranspose r) ∧ (latch .mTranspose r).dest = some (elemRegion 12 2) ∧
    3 < (elemRegion 12 2).len ∧ (elemRegion 12 2).covers 11 = false ∧ (elemRegion 12 2).covers 16 = false := by
  exact ⟨⟨rfl, rfl⟩, rfl, rfl, rfl, rfl, by decide, by decide, by decide⟩

/-- An assertion with an access stalled and with none, held for a step or more, and then the release. -/
theorem witness_HardwareResetFromAnyState :
    let s := given { readyXY .mAdd with stalled := some (.read 1 0) } [.resetAssert, .resetRelease]
    let low := fun is : List Input => given { State.reset with inReset := true } is
    (s.inReset = false ∧ s.inputs = .resetAssert :: .resetRelease :: []) ∧
    ((given (readyXY .mAdd) [.resetAssert, .engine]).inReset = false ∧
      (given (readyXY .mAdd) [.resetAssert, .engine]).inputs = .resetAssert :: .engine :: []) ∧
    ((low [.resetRelease]).inReset = true ∧ (low [.resetRelease]).inputs = .resetRelease :: []) ∧
    ((low [.resetAssert]).inputs = .resetAssert :: [] ∧ (low [.engine]).inputs = .engine :: [] ∧
      (low []).inReset = true ∧ (low []).inputs = []) ∧
    ((given State.reset [.resetRelease]).running ∧ (given State.reset [.resetRelease]).inputs = .resetRelease :: []) := by
  exact ⟨⟨rfl, rfl⟩, ⟨rfl, rfl⟩, ⟨rfl, rfl⟩, ⟨rfl, rfl, rfl, rfl⟩, ⟨rfl, rfl⟩, rfl⟩

/-- RES is written on a completion in the cycle of a STATUS write (60_exceptions.md R224, R226). -/
theorem test_completion_effect_with_status_write :
    resOf (step (given (flying .eAdd (scalarRegs 0x20 1 2) []) [.statusWriteAtCompletion 6])) = some 3 ∧
    statusOf (step (given (flying .eAdd (scalarRegs 0x20 1 2) []) [.statusWriteAtCompletion 6])) = some 2 := by
  decide +kernel

/-- Legal parameters at the lower bound of LMEM_SIZE. -/
theorem witness_ResetMeetsInvariant : ({ Config.Params.default with lmemSize := 4 } : Config.Params).wellFormed = true := by
  decide

/-- A state out of reset in the invariant, with a command in flight. -/
theorem witness_inv_ready : (readyXY .mAdd).Inv where
  params := by decide
  memory := by decide +kernel
  within := by decide +kernel
  checked := by
    intro L h
    cases h
    decide +kernel
  errNone := by decide
  errLegal := by decide
  resHalf := by decide
  held := by
    intro h
    cases h

theorem witness_StepKeepsInvariant : (readyXY .mAdd).Inv ∧ ∃ t, step (readyXY .mAdd) = .next t :=
  ⟨witness_inv_ready, _, rfl⟩

/-- The invariant holds of a state whose engine has a completion to do, and of one whose host steps in reset. -/
theorem witness_CompletionCannotFail :
    (readyXY .mAdd).Inv ∧
    (let s := given { State.reset with inReset := true } [.csr (.read 4 0)]
     s.Inv ∧ step s = .fault .hostAccessInReset) := by
  refine ⟨witness_inv_ready, ⟨by decide, by decide, by decide, ?_, by decide, by decide, by decide, ?_⟩, rfl⟩
  · intro L h
    cases h
  · exact fun _ => ⟨rfl, rfl, rfl, rfl, rfl, rfl, rfl, rfl, rfl⟩

/-- Both clauses: a latched M_ADD with dimension 0, which no run reaches; and a register read in reset. -/
theorem witness_NamedStops :
    ((flying .mAdd OpRegs.reset []).inflight = some (latch .mAdd OpRegs.reset) ∧
      issueCheck (flying .mAdd OpRegs.reset []).params.lmemSize (latch .mAdd OpRegs.reset) = some .badDim) ∧
    (let s := given { State.reset with inReset := true } [.csr (.read 4 0)]
     s.inReset = true ∧ s.inputs = .csr (.read 4 0) :: []) := by
  exact ⟨⟨rfl, by decide +kernel⟩, rfl, rfl⟩

end Sys2Proof.Tests
end

/-! PROOFS. The invariant of the block: it holds at reset, and every elementary change of the state keeps it. -/

namespace Sys2Proof.Machine

/-! ### The value that a completion leaves in RES fits in 16 bits -/

/-- A value reduced mod q is a 16-bit value (20_memory.md R62). -/
theorem Latched.mod_q_lt (L : Latched) (x : Nat) : x % L.q < 2 ^ 16 :=
  (Nat.mod_lt x L.q_pos_le.1).trans_le L.q_pos_le.2

/-- BSEL has 3 bits (10_state.md R26). -/
theorem Latched.B_lt (L : Latched) : L.B < 2 ^ 3 :=
  L.regs.cfg.bsel.isLt

theorem decodeElem_lt (d b v : Nat) : decodeElem d b v < 2 ^ b :=
  Nat.mod_lt _ (Nat.two_pow_pos b)

theorem eqMask_lt (x y : Nat) : eqMask x y < 2 ^ 16 := by
  unfold eqMask
  split <;> decide

theorem maskAll_lt (L : Latched) (s : State) (n : Nat) : maskAll L s n < 2 ^ 16 := by
  cases n with
  | zero => exact (by decide : 0xFFFF < 2 ^ 16)
  | succ n => exact Nat.and_lt_two_pow _ (eqMask_lt _ _)

theorem countBelow_le_length (t : Nat) (table : List Nat) : countBelow t table ≤ table.length := by
  induction table with
  | nil => exact Nat.le_refl 0
  | cons e es ih =>
    simp only [countBelow, List.length_cons]
    split <;> omega

/-- A sample of a table shorter than q is canonical (42_error_sampler.md R163). -/
theorem sample_lt {table : List Nat} {d : Nat} (r : Nat) (h : table.length < 2 ^ d) :
    sample table d r < 2 ^ d := by
  unfold sample
  split
  · exact Nat.mod_lt _ (Nat.two_pow_pos d)
  · exact (countBelow_le_length _ _).trans_lt h

theorem runningSums_length (t : Nat) (fs : List Nat) : (runningSums t fs).length = fs.length + 1 := by
  induction fs generalizing t with
  | nil => rfl
  | cons f fs ih => simp [runningSums, ih]

/-- T(p) has an entry for each entry of CHI[p] (42_error_sampler.md R160). -/
theorem cdfOf_length (chi : List Nat) : (cdfOf chi).length = chi.length := by
  cases chi with
  | nil => rfl
  | cons f fs => exact runningSums_length _ fs

theorem length_le_of_chiLegal {chi : List Nat} (h : Config.chiLegal chi = true) : chi.length ≤ 16 := by
  simp only [Config.chiLegal, Config.chiLengthLegal, Bool.and_eq_true, decide_eq_true_eq] at h
  obtain ⟨⟨⟨⟨_, hle⟩, _⟩, _⟩, _⟩ := h
  exact hle

/-- The table of legal parameters that a PSET value selects has at most 16 entries (00_scope.md R9). -/
theorem cdfTable_length_le {p : Config.Params} (hp : p.wellFormed = true) (sel : BitVec 2) :
    (cdfTable p sel).length ≤ 16 := by
  simp only [Config.Params.wellFormed, Bool.and_eq_true] at hp
  obtain ⟨⟨⟨_, h640⟩, h976⟩, h1344⟩ := hp
  rw [cdfTable, cdfOf_length]
  unfold chiOf
  split
  · exact length_le_of_chiLegal h640
  · exact length_le_of_chiLegal h976
  · exact length_le_of_chiLegal h1344
  · exact Nat.zero_le _

theorem sample_cdfTable_lt {p : Config.Params} (hp : p.wellFormed = true) (sel : BitVec 2) (L : Latched)
    (r : Nat) : sample (cdfTable p sel) L.D r < 2 ^ 16 := by
  have hD : 2 ^ 15 ≤ 2 ^ L.D := Nat.pow_le_pow_right (by decide) (by unfold Latched.D; split <;> decide)
  have hlen := cdfTable_length_le hp sel
  exact (sample_lt r (by omega)).trans_le L.q_pos_le.2

theorem setRes_res_lt (s : State) {v : Nat} (h : v < 2 ^ 16) : (s.setRes v).res.toNat < 2 ^ 16 :=
  (Nat.mod_le v (2 ^ 32)).trans_lt h

/-- The upper half of RES stays 0: an element, a decoded value, a truth value, a mask and a sample all fit in
16 bits (40_ring_element.md R100, R109 to R111, 41_matrix.md R136, R137, 42_error_sampler.md R164). -/
theorem effectOf_res_lt (i : Instr) (L : Latched) {s : State} (hp : s.params.wellFormed = true)
    (hr : s.res.toNat < 2 ^ 16) : (effectOf i L s).res.toNat < 2 ^ 16 := by
  cases hw : writesRes i with
  | false => rwa [effectOf_res L s hw]
  | true =>
    cases i
    case eRed | eAdd | eSub | eNeg | eMul | eEnc => exact setRes_res_lt s (L.mod_q_lt _)
    case eDec =>
      have hB : 2 ^ L.B ≤ 2 ^ 16 := Nat.pow_le_pow_right (by decide) (by have := L.B_lt; omega)
      exact setRes_res_lt s ((decodeElem_lt ..).trans_le hB)
    case eEq | mEq => exact setRes_res_lt s (by split <;> decide)
    case eCteq => exact setRes_res_lt s (eqMask_lt _ _)
    case mCteq => exact setRes_res_lt s (maskAll_lt L s L.N)
    case sSample => exact setRes_res_lt s (sample_cdfTable_lt hp _ L _)
    all_goals cases hw

/-! ### What else an elementary change needs -/

/-- With rst_n high the invariant asks nothing about reset values. -/
theorem held_of_high {s : State} (h : s.inReset = false) : s.inReset = true → s.atReset := by
  simp [h]

/-- NONE is no command error, and the codes end at 7 (60_exceptions.md R223). -/
theorem ErrCode.code_range (e : ErrCode) : e.code ≠ 0 ∧ e.code.toNat ≤ 7 := by
  cases e <;> decide

/-- What a completion writes lies inside LMEM, since its destination passed the issue checks. -/
theorem within_effectOf {s : State} {L : Latched} (hm : Memory.within s.params.lmemSize s.lmem = true)
    (hc : issueCheck s.params.lmemSize L = none) :
    Memory.within s.params.lmemSize (effectOf L.op L s).lmem = true := by
  rcases effectOf_lmem L.op L s rfl with ⟨_, h⟩ | ⟨r, bs, hd, hl, h⟩ <;> rw [h]
  · exact hm
  · exact Memory.within_writeBytes hm (hl ▸ dest_inside hc hd)

theorem wf_effectOf {s : State} (L : Latched) (hm : Memory.wf s.lmem = true) :
    Memory.wf (effectOf L.op L s).lmem = true := by
  rcases effectOf_lmem L.op L s rfl with ⟨_, h⟩ | ⟨r, bs, _, _, h⟩ <;> rw [h]
  · exact hm
  · exact Memory.wf_writeBytes _ _ hm

/-- The region a reset abandons lies inside LMEM. -/
theorem State.Inv.abandonedRegion_inside {s : State} (h : s.Inv) :
    s.abandonedRegion.base + s.abandonedRegion.len ≤ s.params.lmemSize := by
  unfold State.abandonedRegion
  split
  · exact Nat.zero_le _
  · next L hL =>
    cases hd : L.dest with
    | none => exact Nat.zero_le _
    | some r => exact dest_inside (h.checked L hL) hd

/-! ### The invariant under the elementary changes -/

theorem State.Inv.raiseError {s : State} (h : s.Inv) (hr : s.inReset = false) (e : ErrCode) :
    (s.raiseError e).Inv :=
  { h with
    errNone := by
      have hcode : (s.raiseError e).errcode ≠ 0 := by
        rw [State.raiseError_errcode]
        split
        · next he => exact fun h0 => by simp [h.errNone.2 h0] at he
        · exact e.code_range.1
      exact iff_of_false (by simp) hcode
    errLegal := by
      rw [State.raiseError_errcode]
      split
      · exact h.errLegal
      · exact e.code_range.2
    held := held_of_high hr }

theorem State.Inv.issue {s : State} (h : s.Inv) (hr : s.inReset = false) (i : Instr) : (s.issue i).Inv := by
  rcases issue_cases s i with ⟨e, _, ht⟩ | ⟨hc, ht⟩ <;> rw [ht]
  · exact h.raiseError hr e
  · exact { h with
      checked := fun L hL => by cases hL; exact hc
      held := held_of_high hr }

theorem State.Inv.clearStatus {s : State} (h : s.Inv) (hr : s.inReset = false) (w : Word) :
    (s.clearStatus w).Inv :=
  { h with
    errNone := by
      rw [State.clearStatus_err, State.clearStatus_errcode]
      cases w.getLsbD 2 with
      | false => simpa using h.errNone
      | true => simp
    errLegal := by
      rw [State.clearStatus_errcode]
      split
      · decide
      · exact h.errLegal
    held := held_of_high hr }

/-- A completion keeps the invariant (60_exceptions.md R224). -/
theorem State.Inv.complete {s : State} {L : Latched} (h : s.Inv) (hr : s.inReset = false)
    (hL : s.ready L.op L) : (effectOf L.op L s).finish.Inv := by
  obtain ⟨_, _, hc⟩ := hL
  have hres := effectOf_res_lt L.op L h.params h.resHalf
  have hwf := wf_effectOf L h.memory
  have hin := within_effectOf h.within hc
  rw [effectOf_frame]
  exact { h with
    memory := hwf
    within := hin
    checked := fun _ h0 => by cases h0
    resHalf := hres
    held := held_of_high hr }

theorem State.Inv.softReset {s : State} (h : s.Inv) (hr : s.inReset = false) : s.softReset.Inv where
  params := h.params
  memory := Memory.wf_writeBytes _ _ h.memory
  within := Memory.within_writeBytes h.within (by rw [freeBytes_length]; exact h.abandonedRegion_inside)
  checked _ h0 := by cases h0
  errNone := by simp
  errLegal := by simp
  resHalf := by simp
  held := held_of_high hr

/-- A hardware reset brings the invariant about whatever the state was, if the parameters are legal. -/
theorem State.hardReset_inv {s : State} (hp : s.params.wellFormed = true) : s.hardReset.Inv where
  params := hp
  memory := rfl
  within := rfl
  checked _ h0 := by cases h0
  errNone := by simp
  errLegal := by simp
  resHalf := by simp
  held _ := ⟨rfl, rfl, rfl, rfl, rfl, rfl, rfl, rfl, rfl⟩

/-- A host's bytes inside LMEM keep the invariant (20_memory.md R68). -/
theorem State.Inv.storeBytes {s : State} {a : Nat} {bs : List Byte} (h : s.Inv) (hr : s.inReset = false)
    (ha : a + bs.length ≤ s.params.lmemSize) : (s.storeBytes a bs).Inv :=
  { h with
    memory := Memory.wf_writeBytes _ _ h.memory
    within := Memory.within_writeBytes h.within ha
    held := held_of_high hr }

/-- Every elementary change keeps the invariant. -/
theorem Change.inv {s t : State} (h : s.Inv) (hc : Change s t) : t.Inv := by
  cases hc with
  | inputs r | answer r | reads n => exact { h with }
  | unstall =>
    exact { h with
      held := fun hr => by
        obtain ⟨hie, hdone, herr, hcode, hregs, hres, hfl, _, hmem⟩ := h.held hr
        exact ⟨hie, hdone, herr, hcode, hregs, hres, hfl, rfl, hmem⟩ }
  | release => exact { h with held := held_of_high rfl }
  | stall a hr | ie b hr | regs r hr => exact { h with held := held_of_high hr }
  | completed L hr hL => exact h.complete hr hL
  | raised e hr => exact h.raiseError hr e
  | issued i hr => exact h.issue hr i
  | cleared w hr => exact h.clearStatus hr w
  | softReset hr => exact h.softReset hr
  | hardReset => exact State.hardReset_inv h.params
  | hostStore a n v hr _ ha => exact h.storeBytes hr (by rwa [leBytes_length])

theorem Changes.inv {s t : State} (h : s.Inv) (hc : Changes s t) : t.Inv := by
  induction hc with
  | refl => exact h
  | tail _ hc ih => exact hc.inv ih

/-! ### The statements -/

/-- Settles O58: a step is a chain of elementary changes, each of which keeps the invariant. -/
theorem stepKeepsInvariant : Obligations.StepKeepsInvariant :=
  fun _ _ h hs => (step_changes hs).inv h

/-- The state after reset meets the invariant with any legal parameters: it is what the release of rst_n makes of a
hardware reset. -/
theorem reset_inv {p : Config.Params} (hp : p.wellFormed = true) :
    ({ State.reset with params := p } : State).Inv :=
  (Change.release _).inv (State.hardReset_inv (s := { State.reset with params := p }) hp)

/-- Settles O57: `State.reset` is the case of the default parameters, which are legal. -/
theorem resetMeetsInvariant : Obligations.ResetMeetsInvariant :=
  ⟨reset_inv (p := Config.Params.default) (by decide), fun _ hp => reset_inv hp⟩

end Sys2Proof.Machine

/-! PROOFS. The registers and the state behind them: what reads and writes of the register block do,
what a step keeps of the latched command and of the parameters, and what changes RES. -/

namespace Sys2Proof.Machine

/-! ### Register words as numbers -/

/-- Two fields side by side are a number in the place values of the lower one. -/
theorem toNat_append_eq_add {m n : Nat} (x : BitVec m) (y : BitVec n) :
    (x ++ y).toNat = x.toNat * 2 ^ n + y.toNat := by
  rw [BitVec.toNat_append, ← Nat.shiftLeft_add_eq_or_of_lt y.isLt, Nat.shiftLeft_eq]

/-- 10_state.md R24. -/
theorem State.ctrlWord_eq_ofNat (s : State) : s.ctrlWord = BitVec.ofNat 32 s.ie.toNat := by
  apply BitVec.eq_of_toNat_eq
  have hie := Bool.toNat_lt s.ie
  simp only [State.ctrlWord, toNat_append_eq_add, BitVec.toNat_ofBool, BitVec.ofNat_eq_ofNat, BitVec.toNat_ofNat]
  omega

/-- 10_state.md R25. -/
theorem State.statusWord_eq_ofNat (s : State) :
    s.statusWord =
      BitVec.ofNat 32 (s.busy.toNat + 2 * s.done.toNat + 4 * s.err.toNat + 256 * s.errcode.toNat) := by
  apply BitVec.eq_of_toNat_eq
  have hbusy := Bool.toNat_lt s.busy
  have hdone := Bool.toNat_lt s.done
  have herr := Bool.toNat_lt s.err
  have hcode := s.errcode.isLt
  simp only [State.statusWord, toNat_append_eq_add, BitVec.toNat_ofBool, BitVec.ofNat_eq_ofNat, BitVec.toNat_ofNat]
  omega

/-- 10_state.md R26. -/
theorem Cfg.toWord_eq_ofNat (c : Cfg) :
    c.toWord = BitVec.ofNat 32 (c.dsel.toNat + 16 * c.bsel.toNat + 256 * c.pset.toNat) := by
  apply BitVec.eq_of_toNat_eq
  have hdsel := Bool.toNat_lt c.dsel
  have hbsel := c.bsel.isLt
  have hpset := c.pset.isLt
  simp only [Cfg.toWord, toNat_append_eq_add, BitVec.toNat_ofBool, BitVec.ofNat_eq_ofNat, BitVec.toNat_ofNat]
  omega

theorem word_eq_ofNat (w : Word) : w = BitVec.ofNat 32 w.toNat :=
  ((BitVec.ofNat_toNat 32 w).trans (BitVec.setWidth_eq w)).symm

/-- The bits of CFG that a write stores, by place value (10_state.md R26). -/
theorem Cfg.ofWord_eq (w : Word) :
    Cfg.ofWord w =
      { dsel := w.getLsbD 0, bsel := BitVec.ofNat 3 (w.toNat / 16), pset := BitVec.ofNat 2 (w.toNat / 256) } := by
  simp [Cfg.ofWord, BitVec.extractLsb', Nat.shiftRight_eq_div_pow]

theorem State.ctrlWord_getLsbD_ie (s : State) : s.ctrlWord.getLsbD 0 = s.ie := by
  simp only [State.ctrlWord, BitVec.getLsbD_append]
  simp

theorem State.statusWord_getLsbD_done (s : State) : s.statusWord.getLsbD 1 = s.done := by
  simp only [State.statusWord, BitVec.getLsbD_append]
  simp

theorem State.statusWord_getLsbD_err (s : State) : s.statusWord.getLsbD 2 = s.err := by
  simp only [State.statusWord, BitVec.getLsbD_append]
  simp

/-- 10_state.md R24: with bit 1 = 0 a CTRL write is no soft reset. -/
theorem writeCtrl_of_srst_zero (s : State) {w : Word} (h : w.getLsbD 1 = false) :
    writeCtrl s w = { s with ie := w.getLsbD 0 } := by
  rw [writeCtrl, h]
  rfl

theorem and_not_eq_ite (a b : Bool) : (a && !b) = if b then false else a := by
  cases b <;> simp

/-- 10_state.md R25: what a STATUS write leaves of each flag. -/
theorem State.clearStatus_eq_ite (s : State) (w : Word) :
    s.clearStatus w = { s with
      done := if w.getLsbD 1 then false else s.done
      err := if w.getLsbD 2 then false else s.err
      errcode := if w.getLsbD 2 then 0 else s.errcode } := by
  rw [State.clearStatus, and_not_eq_ite, and_not_eq_ite]

/-- PSET = 3 selects no table (00_scope.md R8). -/
theorem cdfTable_pset_three (p : Config.Params) : cdfTable p 3 = [] := rfl

/-! ### The register map past OPB (10_state.md R22) -/

theorem regAt_cdfT {z : Nat} (hz : z < 16) : regAt (0x040 + 4 * z) = some (.cdfT z) := by
  interval_cases z <;> rfl

/-- The arm of the register map for the offsets past CDF_LEN. -/
theorem regAt_of_ge {n : Nat} (h : 0x040 ≤ n) :
    regAt n = if n ≤ 0x07C then some (.cdfT ((n - 0x040) / 4)) else none := by
  unfold regAt
  split
  case h_17 => simp [h]
  all_goals exact absurd h (by decide)

theorem regAt_reserved {n : Nat} (h : 0x080 ≤ n) : regAt n = none := by
  rw [regAt_of_ge (by omega), if_neg (by omega)]

/-- Past OPB no register can be written (10_state.md R22). -/
theorem regAt_of_pastOpb {n : Nat} (h : 0x034 ≤ n) :
    regAt n = some .res ∨ regAt n = some .lmemSize ∨ regAt n = some .cdfLen ∨
      (∃ z, regAt n = some (.cdfT z)) ∨ regAt n = none := by
  unfold regAt
  split
  case h_14 => exact .inl rfl
  case h_15 => exact .inr (.inl rfl)
  case h_16 => exact .inr (.inr (.inl rfl))
  case h_17 =>
    split
    · exact .inr (.inr (.inr (.inl ⟨_, rfl⟩)))
    · exact .inr (.inr (.inr (.inr rfl)))
  all_goals exact absurd h (by decide)

/-! ### One register access of a running block -/

/-- An access of the whole word, at a multiple of 4 inside the block, is admitted (10_state.md R29). -/
theorem csrAdmitted_word {offset : Nat} (h4 : offset % 4 = 0) (hlt : offset < 0x1000) :
    csrAdmitted 4 offset = true := by
  simp [csrAdmitted, h4, hlt]

/-- No register read looks at the inputs to come. -/
theorem readOffset_inputs (s : State) (rest : List Input) (offset : Nat) :
    readOffset { s with inputs := rest } offset = readOffset s offset := by
  unfold readOffset
  split
  · next r _ => cases r <;> rfl
  · rfl

theorem readOffset_of_regAt (s : State) {offset : Nat} {r : Reg} (h : regAt offset = some r) :
    readOffset s offset = readReg s r := by
  simp [readOffset, h]

theorem readOffset_of_reserved (s : State) {offset : Nat} (h : regAt offset = none) : readOffset s offset = 0 := by
  simp [readOffset, h]

/-- A register read answers what the offset reads (20_memory.md R67). -/
theorem step_csrRead {s : State} {offset : Nat} {rest : List Input} (hs : s.running)
    (hi : s.inputs = .csr (.read 4 offset) :: rest) (hadm : csrAdmitted 4 offset = true) :
    step s = .next { s with inputs := rest, resp := .data (readOffset s offset) } := by
  rw [step_takeInput hs hi]
  simp only [takeInput, csrAccess, hadm, if_true, readOffset_inputs]
  rfl

/-- A write of a register other than CMD is that register's write (20_memory.md R67). -/
theorem step_csrWrite {s : State} {offset : Nat} {w : Word} {rest : List Input} (r : Reg) (hs : s.running)
    (hi : s.inputs = .csr (.write 4 offset w) :: rest) (hadm : csrAdmitted 4 offset = true)
    (hreg : regAt offset = some r) (hr : r ≠ .cmd) : step s = .next (writeReg (s.took rest) r w) := by
  rw [step_takeInput hs hi]
  simp only [takeInput, csrAccess, hadm, if_true, hreg]
  cases r
  case cmd => exact absurd rfl hr
  all_goals rfl

/-- A write of a reserved offset is taken and stores nothing (10_state.md R29). -/
theorem step_csrWrite_reserved {s : State} {offset : Nat} {w : Word} {rest : List Input} (hs : s.running)
    (hi : s.inputs = .csr (.write 4 offset w) :: rest) (hadm : csrAdmitted 4 offset = true)
    (hreg : regAt offset = none) : step s = .next (s.took rest) := by
  rw [step_takeInput hs hi]
  simp only [takeInput, csrAccess, hadm, if_true, hreg]
  rfl

/-! ### What a step keeps -/

@[simp] theorem issue_res (s : State) (i : Instr) : (s.issue i).res = s.res := by
  rcases issue_cases s i with ⟨e, _, h⟩ | ⟨_, h⟩ <;> rw [h]
  rfl

@[simp] theorem issue_params (s : State) (i : Instr) : (s.issue i).params = s.params := by
  rcases issue_cases s i with ⟨e, _, h⟩ | ⟨_, h⟩ <;> rw [h]
  rfl

@[simp] theorem effectOf_params (i : Instr) (L : Latched) (s : State) : (effectOf i L s).params = s.params := by
  rw [effectOf_frame]

/-- A completion that changes RES is one of a command that writes RES (30_encoding.md R83). -/
theorem writesRes_of_res_ne {i : Instr} {L : Latched} {s : State} (h : (effectOf i L s).finish.res ≠ s.res) :
    writesRes i = true := by
  cases hw : writesRes i with
  | true => rfl
  | false => exact absurd (effectOf_res L s hw) h

/-- No elementary change touches the parameters. -/
theorem Change.params_eq {s t : State} (h : Change s t) : t.params = s.params := by
  cases h with
  | issued i => exact issue_params s i
  | completed L => exact effectOf_params L.op L s
  | _ => rfl

theorem Changes.params_eq {s t : State} (h : Changes s t) : t.params = s.params := by
  induction h with
  | refl => rfl
  | tail _ hc ih => exact hc.params_eq.trans ih

/-! ### The statements -/

/-- Settles O39, by the cause of the step: a completion changes RES only if its command writes RES, and of the other
causes only the two resets do. -/
theorem resChangesOnlyAtCompletionOrReset : Obligations.ResChangesOnlyAtCompletionOrReset := by
  intro s t h hne
  cases step_result h with
  | quiet _ _ _ _ hres => exact absurd hres hne
  | completed r L hL => exact .inl ⟨L, hL.1, rfl, writesRes_of_res_ne hne⟩
  | clearedCompleted r w L _ _ hL => exact .inl ⟨L, hL.1, rfl, writesRes_of_res_ne hne⟩
  | cleared r w | raised r e => exact absurd rfl hne
  | issued r i => exact absurd (issue_res (s.took r) i) hne
  | softReset r w hs hi hw => exact .inr (.inl ⟨hs, w, r, hi, hw⟩)
  | hardReset r hi => exact .inr (.inr ⟨r, hi⟩)

/-- Settles O40, by the cause of the step: an issue needs that nothing is in flight, a completion and a reset drop the
latched copy, and no other cause touches it. -/
theorem latchedCommandIsNeverChanged : Obligations.LatchedCommandIsNeverChanged := by
  intro s t L h hL
  cases step_result h with
  | quiet _ _ _ _ _ hfl => exact .inl (hfl.trans hL)
  | cleared r w | raised r e => exact .inl hL
  | issued r i h0 => simp [h0] at hL
  | completed | clearedCompleted | softReset | hardReset => exact .inr rfl

/-- Settles O41: a step is a chain of elementary changes, none of which touches the parameters, and the tables are
computed from the parameters. -/
theorem cdfRomIsReadOnly : Obligations.CdfRomIsReadOnly := by
  intro s t h
  have hp := (step_changes h).params_eq
  exact ⟨hp, fun sel => by rw [hp]⟩

/-- Settles O7: an idle block issues the command, and an issue that passes the checks latches the snapshot. -/
theorem issueLatchesOperands : Obligations.IssueLatchesOperands := by
  intro s i h0 hc
  rw [exec_of_idle i h0]
  rcases issue_cases s i with ⟨e, he, _⟩ | ⟨_, h⟩
  · cases hc.symm.trans he
  · rw [h]
    rfl

/-- Settles O44: a read answers what the offset reads, and each register's word is the number of its fields. -/
theorem registerReads : Obligations.RegisterReads := by
  intro s offset rest hs hi answered
  have reads {v : Nat} (r : Reg) (hadm : csrAdmitted 4 offset = true) (hreg : regAt offset = some r)
      (hv : readReg s r = BitVec.ofNat 32 v) : answered v := by
    have h := step_csrRead hs hi hadm
    rwa [readOffset_of_regAt s hreg, hv] at h
  have hcdf {z : Nat} (hz : z < 16) (ho : offset = 0x040 + 4 * z) :
      answered ((cdfTable s.params s.regs.cfg.pset).getD z 0) :=
    reads (.cdfT z) (csrAdmitted_word (by omega) (by omega)) (ho ▸ regAt_cdfT hz) rfl
  refine ⟨?_, ?_, ?_, ?_, ?_, ?_, ?_, ?_, ?_, ?_, ?_, ?_, ?_, ?_, ?_, ?_, fun z hz => hcdf hz, ?_, ?_, ?_⟩
  · rintro rfl; exact reads .id rfl rfl rfl
  · rintro rfl; exact reads .ctrl rfl rfl s.ctrlWord_eq_ofNat
  · rintro rfl; exact reads .status rfl rfl s.statusWord_eq_ofNat
  · rintro rfl; exact reads .cfg rfl rfl s.regs.cfg.toWord_eq_ofNat
  · rintro rfl; exact reads .cmd rfl rfl rfl
  · rintro rfl; exact reads .src0 rfl rfl (word_eq_ofNat s.regs.src0)
  · rintro rfl; exact reads .src1 rfl rfl (word_eq_ofNat s.regs.src1)
  · rintro rfl; exact reads .dst rfl rfl (word_eq_ofNat s.regs.dst)
  · rintro rfl; exact reads .rows rfl rfl (BitVec.ofNat_toNat 32 s.regs.rows).symm
  · rintro rfl; exact reads .cols rfl rfl (BitVec.ofNat_toNat 32 s.regs.cols).symm
  · rintro rfl; exact reads .inner rfl rfl (BitVec.ofNat_toNat 32 s.regs.inner).symm
  · rintro rfl; exact reads .opa rfl rfl (word_eq_ofNat s.regs.opa)
  · rintro rfl; exact reads .opb rfl rfl (word_eq_ofNat s.regs.opb)
  · rintro rfl; exact reads .res rfl rfl (word_eq_ofNat s.res)
  · rintro rfl; exact reads .lmemSize rfl rfl rfl
  · rintro rfl; exact reads .cdfLen rfl rfl rfl
  · rintro hp rfl
    exact reads .cdfLen rfl rfl (by rw [readReg, State.liveTable, hp, cdfTable_pset_three]; rfl)
  · intro hp z hz ho
    have h := hcdf hz ho
    rwa [hp, cdfTable_pset_three, List.getD_nil] at h
  · intro hge hle h4
    have h := step_csrRead hs hi (csrAdmitted_word h4 (by omega))
    rwa [readOffset_of_reserved s (regAt_reserved hge)] at h

/-- Settles O45: each offset is one register's write; a field stores the bits at its place in the written word. -/
theorem operandRegisterWrites : Obligations.OperandRegisterWrites := by
  intro s offset w rest hs hi
  refine ⟨?_, ?_, ?_, ?_, ?_, ?_, ?_, ?_, ?_⟩ <;> rintro rfl
  · rw [← Cfg.ofWord_eq]
    exact step_csrWrite .cfg hs hi rfl rfl nofun
  · exact step_csrWrite .src0 hs hi rfl rfl nofun
  · exact step_csrWrite .src1 hs hi rfl rfl nofun
  · exact step_csrWrite .dst hs hi rfl rfl nofun
  · rw [BitVec.ofNat_toNat]
    exact step_csrWrite .rows hs hi rfl rfl nofun
  · rw [BitVec.ofNat_toNat]
    exact step_csrWrite .cols hs hi rfl rfl nofun
  · rw [BitVec.ofNat_toNat]
    exact step_csrWrite .inner hs hi rfl rfl nofun
  · exact step_csrWrite .opa hs hi rfl rfl nofun
  · exact step_csrWrite .opb hs hi rfl rfl nofun

/-- Settles O46: ID and the registers past OPB ignore what is written, and so does a reserved offset. -/
theorem readOnlyAndReservedWritesIgnored : Obligations.ReadOnlyAndReservedWritesIgnored := by
  intro s offset w rest hs hi h4 ho
  rcases ho with rfl | ⟨hge, hle⟩
  · exact step_csrWrite .id hs hi rfl rfl nofun
  · have hadm := csrAdmitted_word h4 (by omega)
    rcases regAt_of_pastOpb hge with h | h | h | ⟨z, h⟩ | h
    · exact step_csrWrite .res hs hi hadm h nofun
    · exact step_csrWrite .lmemSize hs hi hadm h nofun
    · exact step_csrWrite .cdfLen hs hi hadm h nofun
    · exact step_csrWrite (.cdfT z) hs hi hadm h nofun
    · exact step_csrWrite_reserved hs hi hadm h

/-- Settles O51: CTRL without SRST stores IE, and STATUS clears flag by flag. -/
theorem statusAndCtrlWrites : Obligations.StatusAndCtrlWrites := by
  intro s w rest hs
  refine ⟨fun hi hw => ?_, fun hi => ?_⟩
  · rw [step_csrWrite .ctrl hs hi rfl rfl nofun]
    rw [writeReg, writeCtrl_of_srst_zero _ hw]
    rfl
  · rw [step_csrWrite .status hs hi rfl rfl nofun]
    rw [writeReg, State.clearStatus_eq_ite]
    rfl

/-- Settles O53: bit 0 of CTRL and bits 1 and 2 of STATUS read IE, DONE and ERR. -/
theorem interruptFollowsReadableBits : Obligations.InterruptFollowsReadableBits := by
  intro s
  rw [readOffset_of_regAt s (r := .ctrl) rfl, readOffset_of_regAt s (r := .status) rfl]
  simp only [readReg, State.ctrlWord_getLsbD_ie, State.statusWord_getLsbD_done, State.statusWord_getLsbD_err]
  rfl

/-- Settles O56, by reading each register of the one state. -/
theorem registersReadResetValues : Obligations.RegistersReadResetValues := by
  refine ⟨rfl, rfl, rfl, rfl, ?_, rfl, rfl⟩
  decide

end Sys2Proof.Machine

/-! PROOFS. LMEM as the host and the engine see it: what a host access does while the block is idle and while it is
busy, and which bytes a completion depends on. -/

namespace Sys2Proof.Machine

/-! ### A host access to an idle block -/

theorem lmemAdmitted_of {size n a : Nat} (hn : n = 1 ∨ n = 2 ∨ n = 4) (ha : a % n = 0) (hs : a + n ≤ size) :
    lmemAdmitted size n a = true := by
  simp [lmemAdmitted, hn, ha, hs, or_assoc]

/-- With nothing in flight an LMEM access is performed at once (20_memory.md R68). -/
theorem step_lmemAccess {s : State} {a : LmemAccess} {rest : List Input} (hs : s.running) (hb : s.busy = false)
    (hi : s.inputs = .lmem a :: rest) : step s = .next (lmemAccess a { s with inputs := rest }) := by
  have hb' : ({ s with inputs := rest } : State).busy = false := hb
  rw [step_takeInput hs hi]
  simp [takeInput, hb']

/-- An admitted read answers its bytes and counts one draw for each (20_memory.md R79). -/
theorem step_lmemRead {s : State} {n a : Nat} {rest : List Input} (hs : s.running) (hb : s.busy = false)
    (hi : s.inputs = .lmem (.read n a) :: rest) (hadm : lmemAdmitted s.params.lmemSize n a = true) :
    step s = .next { s with inputs := rest, draws := s.draws + n,
                            resp := .data (BitVec.ofNat 32 (memRead s.lmem s.draws a n)) } := by
  rw [step_lmemAccess hs hb hi]
  exact congrArg Host.Outcome.next (if_pos hadm)

/-- An admitted write stores the low bytes of its data (log 14). -/
theorem step_lmemWrite {s : State} {n a : Nat} {w : Word} {rest : List Input} (hs : s.running) (hb : s.busy = false)
    (hi : s.inputs = .lmem (.write n a w) :: rest) (hadm : lmemAdmitted s.params.lmemSize n a = true) :
    step s = .next { s with inputs := rest, resp := .written,
                            lmem := Memory.writeBytes s.lmem a (leBytes n w.toNat) } := by
  rw [step_lmemAccess hs hb hi]
  exact congrArg Host.Outcome.next (if_pos hadm)

/-- Byte `k` of a word, least significant first (20_memory.md R61). -/
theorem extractLsb'_byte (w : Word) (k : Nat) : w.extractLsb' (8 * k) 8 = BitVec.ofNat 8 (w.toNat / 256 ^ k) := by
  rw [BitVec.extractLsb', Nat.shiftRight_eq_div_pow, Nat.pow_mul]

/-- A value written little-endian reads back as its low bytes, whatever the draws. -/
theorem memRead_writeBytes_leBytes (m : Memory) (d a n v : Nat) :
    memRead (Memory.writeBytes m a (leBytes n v)) d a n = v % 256 ^ n := by
  induction n generalizing m d a v with
  | zero => simp [memRead, Nat.mod_one]
  | succ n ih =>
    have hb : Memory.lookup (Memory.writeBytes m a (leBytes (n + 1) v)) a = some (BitVec.ofNat 8 v) := by
      simp [Memory.lookup_writeBytes, leBytes]
    rw [memRead, readByte_of_lookup hb, leBytes, Memory.writeBytes, ih, Nat.pow_succ', Nat.mod_mul]
    rfl

/-! ### A host access to a busy block -/

theorem engineTurn_of_inflight {s : State} {L : Latched} (h : s.inflight = some L) : engineTurn s = exec L.op s := by
  simp [engineTurn, h]

theorem busy_of_inflight {s : State} {L : Latched} (h : s.inflight = some L) : s.busy = true := by
  simp [State.busy, h]

/-! ### The bytes that a completion depends on (20_memory.md R71) -/

/-- The two states hold the same bytes in the region, written or not. -/
def SameBytes (r : Region) (s s' : State) : Prop :=
  ∀ a, r.covers a = true → Memory.lookup s'.lmem a = Memory.lookup s.lmem a

/-- The two states agree on everything that a completion of `L` may read: the parameters, the draws to come, and the
bytes of the source regions. -/
structure SameSources (L : Latched) (s s' : State) : Prop where
  params : s'.params = s.params
  draws  : s'.draws = s.draws
  bytes  : ∀ r ∈ L.sources, SameBytes r s s'

/-- A run of bytes as long as the region, written at its base, leaves the same bytes there whatever was there before. -/
theorem storeBytes_sameBytes (s s' : State) {r : Region} {bs : List Byte} (hl : bs.length = r.len) :
    SameBytes r (s.storeBytes r.base bs) (s'.storeBytes r.base bs) := by
  intro a ha
  have h := (Region.covers_iff r a).1 ha
  simp only [State.storeBytes_lmem, Memory.lookup_writeBytes, hl, if_pos h]

theorem storeElems_sameBytes (L : Latched) (s s' : State) {n reads : Nat} {f f' : Nat → Nat}
    (h : ∀ k < n, f' k = f k) :
    SameBytes (elemRegion L.dst n) (storeElems L n reads f s) (storeElems L n reads f' s') := by
  have e : elemsBytes L.q f' n = elemsBytes L.q f n :=
    List.flatMap_congr fun k hk => by rw [h k (List.mem_range.1 hk)]
  rw [storeElems, storeElems, e]
  exact storeBytes_sameBytes s s' (r := elemRegion L.dst n) (elemsBytes_length L.q f n)

theorem storeByteRun_sameBytes (L : Latched) (s s' : State) {n reads : Nat} {f f' : Nat → Nat}
    (h : ∀ j < n, f' j = f j) :
    SameBytes (byteRegion L.dst n) (storeByteRun L n reads f s) (storeByteRun L n reads f' s') := by
  have e : (List.range n).map (fun j => BitVec.ofNat 8 (f' j)) = (List.range n).map (fun j => BitVec.ofNat 8 (f j)) :=
    List.map_congr_left fun j hj => by rw [h j (List.mem_range.1 hj)]
  rw [storeByteRun, storeByteRun, e]
  exact storeBytes_sameBytes s s' (r := byteRegion L.dst n) (by simp [byteRegion])

section Reads

variable {L : Latched} {s s' : State} (h : SameSources L s s')
include h

/-! ### Reads inside a source region -/

/-- A 16-bit read inside a source region. -/
theorem SameSources.memRead_two {r : Region} {a : Nat} (d : Nat) (hr : r ∈ L.sources) (h0 : r.base ≤ a)
    (h1 : a + 2 ≤ r.base + r.len) : memRead s'.lmem (s'.draws + d) a 2 = memRead s.lmem (s.draws + d) a 2 := by
  rw [h.draws]
  exact memRead_congr fun x hx hx' => h.bytes r hr x ((Region.covers_iff r x).2 ⟨by omega, by omega⟩)

theorem SameSources.elemOf_eq {base n k : Nat} (pos : Nat) (hr : elemRegion base n ∈ L.sources) (hk : k < n) :
    elemOf L s' base k pos = elemOf L s base k pos :=
  congrArg (· % L.q) (h.memRead_two pos hr (by simp [elemRegion]) (by simp [elemRegion]; omega))

/-- The two elements number `k` of a command with two source matrices of N elements. -/
theorem SameSources.elemPair_eq (hs : L.sources = [elemRegion L.src0 L.N, elemRegion L.src1 L.N]) {k : Nat}
    (pos : Nat) (hk : k < L.N) :
    elemOf L s' L.src0 k pos = elemOf L s L.src0 k pos ∧
      elemOf L s' L.src1 k (pos + 2) = elemOf L s L.src1 k (pos + 2) :=
  ⟨h.elemOf_eq pos (by simp [hs]) hk, h.elemOf_eq (pos + 2) (by simp [hs]) hk⟩

theorem SameSources.srcByte_eq {n j : Nat} (hr : byteRegion L.src0 n ∈ L.sources) (hj : j < n) :
    srcByte L s' j = srcByte L s j := by
  have hb := h.bytes _ hr (L.src0 + j) ((Region.covers_iff ..).2 ⟨by simp [byteRegion], by simpa [byteRegion]⟩)
  simp only [srcByte, readByte, hb, h.draws]

theorem SameSources.srcWord_eq {n k : Nat} (hr : byteRegion L.src0 (2 * n) ∈ L.sources) (hk : k < n) :
    memRead s'.lmem (s'.draws + 2 * k) (L.src0 + 2 * k) 2 = memRead s.lmem (s.draws + 2 * k) (L.src0 + 2 * k) 2 :=
  h.memRead_two (2 * k) hr (by simp [byteRegion]) (by simp [byteRegion]; omega)

/-! ### The values that each command computes -/

theorem SameSources.mAddElem_eq (ho : L.op = .mAdd) {k : Nat} (hk : k < L.N) : mAddElem L s' k = mAddElem L s k := by
  obtain ⟨hx, hy⟩ := h.elemPair_eq (by simp [Latched.sources, ho]) (4 * k) hk
  rw [mAddElem, mAddElem, hx, hy]

theorem SameSources.mSubElem_eq (ho : L.op = .mSub) {k : Nat} (hk : k < L.N) : mSubElem L s' k = mSubElem L s k := by
  obtain ⟨hx, hy⟩ := h.elemPair_eq (by simp [Latched.sources, ho]) (4 * k) hk
  rw [mSubElem, mSubElem, hx, hy]

/-- Row n / C of X and column n mod C of Y lie inside the sources. -/
theorem SameSources.mMulElem_eq (ho : L.op = .mMul) {n : Nat} (hn : n < L.N) : mMulElem L s' n = mMulElem L s n := by
  have hC : 0 < L.C := Nat.pos_of_lt_mul_left hn
  have hrow : n / L.C < L.R := Nat.div_lt_of_lt_mul (by rwa [Nat.mul_comm])
  refine congrArg (· % L.q) (sumTo_congr fun k hk => ?_)
  rw [h.elemOf_eq (base := L.src0) (n := L.R * L.K) _ (by simp [Latched.sources, ho]) (rowMajor_lt hrow hk),
    h.elemOf_eq (base := L.src1) (n := L.K * L.C) _ (by simp [Latched.sources, ho]) (rowMajor_lt hk (Nat.mod_lt n hC))]

theorem SameSources.mTransposeElem_eq (ho : L.op = .mTranspose) {n : Nat} (hn : n < L.N) :
    mTransposeElem L s' n = mTransposeElem L s n := by
  have hR : 0 < L.R := Nat.pos_of_lt_mul_right hn
  exact h.elemOf_eq (n := L.N) _ (by simp [Latched.sources, ho])
    (rowMajor_lt (Nat.mod_lt n hR) (Nat.div_lt_of_lt_mul hn))

theorem SameSources.allEqual_eq (ho : L.op = .mEq) {n : Nat} (hn : n ≤ L.N) : allEqual L s' n = allEqual L s n := by
  induction n with
  | zero => rfl
  | succ n ih =>
    obtain ⟨hx, hy⟩ := h.elemPair_eq (by simp [Latched.sources, ho]) (4 * n) hn
    rw [allEqual, allEqual, ih (by omega), hx, hy]

theorem SameSources.maskAll_eq (ho : L.op = .mCteq) {n : Nat} (hn : n ≤ L.N) : maskAll L s' n = maskAll L s n := by
  induction n with
  | zero => rfl
  | succ n ih =>
    obtain ⟨hx, hy⟩ := h.elemPair_eq (by simp [Latched.sources, ho]) (4 * n) hn
    rw [maskAll, maskAll, ih (by omega), hx, hy]

theorem SameSources.sampleEntry_eq (ho : L.op = .sSampleMat) {k : Nat} (hk : k < L.N) :
    sampleEntry L s' k = sampleEntry L s k := by
  rw [sampleEntry, sampleEntry, h.params, h.srcWord_eq (by simp [Latched.sources, ho]) hk]

/-- Since N is a multiple of 8, the N * B message bits fill whole bytes, so every bit of an element is in the source. -/
theorem SameSources.messageValue_eq (ho : L.op = .cEncode) (hd : L.dimBad = false) {k : Nat} (hk : k < L.N) :
    messageValue L s' k = messageValue L s k := by
  have hN : 8 ∣ L.N := by
    have : needsGroupsOf8 L.op = true := by rw [ho]; rfl
    simp only [Latched.dimBad, this, Bool.true_and, Bool.or_eq_false_iff, bne_eq_false_iff_eq] at hd
    exact Nat.dvd_of_mod_eq_zero hd.2
  refine sumTo_congr fun l hl => ?_
  have hp : k * L.B + l < L.N * L.B := rowMajor_lt hk hl
  have hj : (k * L.B + l) / 8 < L.messageLen :=
    Nat.div_lt_div_of_lt_of_dvd (hN.mul_right L.B) hp
  rw [messageBit, messageBit, h.srcByte_eq (by simp [Latched.sources, ho]) hj]

/-- The 8 bits of an output byte come from elements of the source. -/
theorem SameSources.decodedByte_eq (ho : L.op = .cDecode) {j : Nat} (hj : j < L.messageLen) :
    decodedByte L s' j = decodedByte L s j := by
  refine sumTo_congr fun t ht => ?_
  have hp : 8 * j + t < L.N * L.B := by
    unfold Latched.messageLen at hj
    omega
  have he : (8 * j + t) / L.B < L.N := Nat.div_lt_of_lt_mul (Nat.mul_comm L.N L.B ▸ hp)
  rw [decodedBit, decodedBit, srcElem, srcElem, h.elemOf_eq _ (by simp [Latched.sources, ho]) he]

theorem SameSources.packedByte_eq (ho : L.op = .cPack) (j : Nat) : packedByte L s' j = packedByte L s j := by
  refine sumTo_congr fun t _ => congrArg (· * 2 ^ (7 - t)) ?_
  unfold packedBit
  split
  · next hp =>
    have he : (8 * j + t) / L.D < L.N := Nat.div_lt_of_lt_mul (Nat.mul_comm L.N L.D ▸ hp)
    rw [srcElem, srcElem, h.elemOf_eq _ (by simp [Latched.sources, ho]) he]
  · rfl

theorem SameSources.unpackElem_eq (ho : L.op = .cUnpack) {k : Nat} (hk : k < L.N) :
    unpackElem L s' k = unpackElem L s k := by
  refine sumTo_congr fun l hl => ?_
  have hp : k * L.D + l < L.N * L.D := rowMajor_lt hk hl
  have hj : (k * L.D + l) / 8 < L.packedLen := by
    unfold Latched.packedLen
    omega
  rw [unpackBit, unpackBit, h.srcByte_eq (by simp [Latched.sources, ho]) hj]

theorem SameSources.srcElem_eq (ho : L.op = .cStoreLe) {k : Nat} (hk : k < L.N) :
    srcElem L s' k = srcElem L s k :=
  h.elemOf_eq _ (by simp [Latched.sources, ho]) hk

/-! ### The effects -/

theorem SameSources.effect_res (hres : s'.res = s.res) : (effectOf L.op L s').res = (effectOf L.op L s).res := by
  cases hw : writesRes L.op with
  | false => rw [effectOf_res L s hw, effectOf_res L s' hw, hres]
  | true =>
    cases ho : L.op
    case eRed | eAdd | eSub | eNeg | eMul | eEnc | eDec | eEq | eCteq => rfl
    case sSample => simp only [effectOf, sSampleEffect, State.setRes_res, h.params]
    case mEq => simp only [effectOf, mEqEffect, State.countReads_res, State.setRes_res, h.allEqual_eq ho le_rfl]
    case mCteq => simp only [effectOf, mCteqEffect, State.countReads_res, State.setRes_res, h.maskAll_eq ho le_rfl]
    all_goals simp [ho, writesRes] at hw

theorem SameSources.effect_bytes {size : Nat} {r : Region} (hc : issueCheck size L = none) (hr : L.dest = some r) :
    SameBytes r (effectOf L.op L s) (effectOf L.op L s') := by
  obtain ⟨-, hd, -⟩ := issueCheck_eq_none.1 hc
  cases ho : L.op <;> simp only [Latched.dest, ho] at hr <;> cases hr
  case mAdd => exact storeElems_sameBytes L s s' fun k hk => h.mAddElem_eq ho hk
  case mSub => exact storeElems_sameBytes L s s' fun k hk => h.mSubElem_eq ho hk
  case mMul => exact storeElems_sameBytes L s s' fun k hk => h.mMulElem_eq ho hk
  case mTranspose => exact storeElems_sameBytes L s s' fun k hk => h.mTransposeElem_eq ho hk
  case sSampleMat => exact storeElems_sameBytes L s s' fun k hk => h.sampleEntry_eq ho hk
  case cEncode =>
    exact storeElems_sameBytes L s s' fun k hk => congrArg (· * 2 ^ (L.D - L.B)) (h.messageValue_eq ho hd hk)
  case cDecode => exact storeByteRun_sameBytes L s s' fun j hj => h.decodedByte_eq ho hj
  case cPack => exact storeByteRun_sameBytes L s s' fun j _ => h.packedByte_eq ho j
  case cUnpack => exact storeElems_sameBytes L s s' fun k hk => h.unpackElem_eq ho hk
  case cStoreLe =>
    have e : (List.range L.N).flatMap (fun k => leBytes 2 (srcElem L s' k)) =
        (List.range L.N).flatMap (fun k => leBytes 2 (srcElem L s k)) :=
      List.flatMap_congr fun k hk => by rw [h.srcElem_eq ho (List.mem_range.1 hk)]
    simp only [effectOf, cStoreLeEffect, e]
    exact storeBytes_sameBytes s s' (r := byteRegion L.dst (2 * L.N))
      (flatMap_pairs_length _ (fun _ => leBytes_length 2 _) L.N)
  case cLoadLe =>
    exact storeElems_sameBytes L s s' fun k hk =>
      congrArg (· % L.q) (h.srcWord_eq (by simp [Latched.sources, ho]) hk)

end Reads

/-! ### The statements -/

/-- Settles O42, by the cause of the step: only a completion and a reset touch LMEM while a command is in flight, and
both end it. -/
theorem lmemIsStillWhileBusy : Obligations.LmemIsStillWhileBusy := by
  intro s t h hs ht
  cases step_result h with
  | quiet _ _ _ _ _ _ hmem => exact hmem hs
  | cleared r w | raised r e => rfl
  | issued r i h0 => simp [State.busy, h0] at hs
  | completed | clearedCompleted | softReset | hardReset => cases ht

/-- Settles O43: both blocks complete, what the completion computes from sources that agree is the same, and the bytes
it writes fill the destination. -/
theorem completionReadsOnlyItsSources : Obligations.CompletionReadsOnlyItsSources := by
  intro i s s' t t' L hs hs' hparams hdraws hres hbytes ht ht'
  have h : SameSources L s s' := ⟨hparams, hdraws, hbytes⟩
  rw [exec_of_ready hs] at ht
  rw [exec_of_ready hs'] at ht'
  cases ht
  cases ht'
  obtain ⟨-, rfl, hc⟩ := hs
  refine ⟨h.effect_res hres, ?_, fun r hr => h.effect_bytes hc hr⟩
  rw [State.finish_draws, State.finish_draws, effectOf_draws s rfl, effectOf_draws s' rfl, hdraws]

/-- Settles O48: the write stores the little-endian bytes of its data as one run, which the read puts together again. -/
theorem hostLmemWriteReadsBack : Obligations.HostLmemWriteReadsBack := by
  intro s n a w rest hs hb hn ha hsize hi
  have hadm := lmemAdmitted_of hn ha hsize
  refine ⟨_, step_lmemWrite hs hb hi hadm, rfl, fun k hk => ?_, fun x hx => ?_, fun rest' hi' => ?_⟩
  · rw [Memory.lookup_writeBytes, leBytes_length, if_pos (by omega), Nat.add_sub_cancel_left, leBytes_getElem? _ hk,
      extractLsb'_byte]
  · rw [Memory.lookup_writeBytes, leBytes_length, if_neg (by omega)]
  · refine ⟨_, step_lmemRead hs hb hi' hadm, ?_⟩
    rw [memRead_writeBytes_leBytes]

/-- Settles O49: a read is the sum of its bytes, and each of them is the written byte or the draw of its place. -/
theorem hostLmemReadAnswersBytes : Obligations.HostLmemReadAnswersBytes := by
  intro s n a rest hs hb hn ha hsize hi byte
  have hbyte (k : Nat) : readByte s.lmem (s.draws + k) (a + k) = byte k := by
    cases hl : Memory.lookup s.lmem (a + k) with
    | none => simp only [byte, hl, readByte_of_unwritten hl]
    | some b => simp only [byte, hl, readByte_of_lookup hl]
  rw [step_lmemRead hs hb hi (lmemAdmitted_of hn ha hsize), memRead_eq_sum]
  simp only [hbyte]

/-- Settles O50, clause by clause: held, the completion first, the same by the engine's own turn, performed, and
answered with a bus error at a hardware reset. -/
theorem lmemAccessStallsWhileBusy : Obligations.LmemAccessStallsWhileBusy := by
  intro s a rest hr
  refine ⟨fun ha hb hi => ?_, fun L ha hL hi => ?_, fun L ha hL hi => ?_, fun ha hb hi => ?_, fun ha hi => ?_⟩
  · rw [step_takeInput ⟨hr, ha⟩ hi]
    exact if_pos hb
  · rw [step_of_stalled hr ha, stepStalled]
    split
    · next h => exact absurd rfl (hi _ _ h).1
    · next h => exact absurd rfl (hi _ _ h).2
    · rw [if_pos (busy_of_inflight hL), engineTurn_of_inflight hL]
  · have hb : ({ s with inputs := rest } : State).inflight = some L := hL
    simp only [step_of_stalled hr ha, stepStalled, hi]
    rw [if_pos (busy_of_inflight hL), engineTurn_of_inflight hb]
  · rw [step_of_stalled hr ha, stepStalled]
    split
    · next h => exact absurd h (hi _)
    all_goals simp [hb]
  · refine ⟨({ s with inputs := rest } : State).hardReset, ?_, ?_, rfl, rfl, rfl⟩
    · simp only [step_of_stalled hr ha, stepStalled, hi]
    · simp [ha]

end Sys2Proof.Machine

/-! PROOFS. The command word: its three fields, the opcode map as the inverse of the encoder, the reserved opcodes
by number, and what a CMD write that is refused leaves behind. -/

namespace Sys2Proof

/-! ### The fields of a word (30_encoding.md R80) -/

theorem wordReserved_toNat (w : Word) : (wordReserved w).toNat = w.toNat / 256 := by
  simp only [wordReserved, BitVec.extractLsb'_toNat, Nat.shiftRight_eq_div_pow]
  omega

theorem wordFam_toNat (w : Word) : (wordFam w).toNat = w.toNat / 16 % 16 := by
  simp only [wordFam, BitVec.extractLsb'_toNat, Nat.shiftRight_eq_div_pow, Nat.reducePow]

theorem wordFn_toNat (w : Word) : (wordFn w).toNat = w.toNat % 16 := by
  simp only [wordFn, BitVec.extractLsb'_toNat, Nat.shiftRight_zero, Nat.reducePow]

/-- A word is its three fields side by side, so a word and a command's encoding are equal field by field. -/
theorem eq_encode_iff (w : Word) (i : Instr) :
    w = encode i ↔ wordReserved w = 0 ∧ wordFam w ++ wordFn w = opcode i := by
  simp only [← BitVec.toNat_inj, encode, Machine.toNat_append_eq_add, wordReserved_toNat, wordFam_toNat,
    wordFn_toNat, BitVec.ofNat_eq_ofNat, BitVec.toNat_ofNat]
  have hop := (opcode i).isLt
  omega

/-! ### The opcode map and the encoder are inverse (R82) -/

theorem opcode_of_decodeRing {fn : BitVec 4} {i : Instr} (h : decodeRing fn = some i) : 0x0#4 ++ fn = opcode i := by
  unfold decodeRing at h
  split at h <;> cases h <;> rfl

theorem opcode_of_decodeMatrix {fn : BitVec 4} {i : Instr} (h : decodeMatrix fn = some i) :
    0x1#4 ++ fn = opcode i := by
  unfold decodeMatrix at h
  split at h <;> cases h <;> rfl

theorem opcode_of_decodeSampler {fn : BitVec 4} {i : Instr} (h : decodeSampler fn = some i) :
    0x2#4 ++ fn = opcode i := by
  unfold decodeSampler at h
  split at h <;> cases h <;> rfl

theorem opcode_of_decodeCodec {fn : BitVec 4} {i : Instr} (h : decodeCodec fn = some i) :
    0x3#4 ++ fn = opcode i := by
  unfold decodeCodec at h
  split at h <;> cases h <;> rfl

/-- Whatever the opcode map answers has the opcode that was looked up. -/
theorem opcode_of_decodeOpcode {fam fn : BitVec 4} {i : Instr} (h : decodeOpcode fam fn = some i) :
    fam ++ fn = opcode i := by
  unfold decodeOpcode at h
  split at h
  · exact opcode_of_decodeRing h
  · exact opcode_of_decodeMatrix h
  · exact opcode_of_decodeSampler h
  · exact opcode_of_decodeCodec h
  · cases h

/-- Every command is the decoding of its own word. -/
theorem decode_encode (i : Instr) : decode (encode i) = .ok i := by
  cases i <;> rfl

theorem decode_eq_ok_iff (w : Word) (i : Instr) :
    decode w = .ok i ↔ wordReserved w = 0 ∧ decodeOpcode (wordFam w) (wordFn w) = some i := by
  unfold decode
  split
  · next hr => exact ⟨nofun, fun h => absurd h.1 hr⟩
  · next hr =>
    rw [not_not.1 hr]
    cases decodeOpcode (wordFam w) (wordFn w) <;> simp

/-- Settles O2: a word that decodes has RSVD = 0 and the command's opcode, and the fields make up the word. -/
theorem everyWordIsOneCommandOrIllegal : Obligations.EveryWordIsOneCommandOrIllegal := by
  intro w i
  constructor
  · intro h
    obtain ⟨hr, hop⟩ := (decode_eq_ok_iff w i).1 h
    exact (eq_encode_iff w i).2 ⟨hr, opcode_of_decodeOpcode hop⟩
  · rintro rfl
    exact decode_encode i

/-! ### The reserved opcodes by number (R85) -/

theorem decodeRing_eq_none_iff : ∀ fn, decodeRing fn = none ↔ 0xA ≤ fn.toNat := by decide

theorem decodeMatrix_eq_none_iff : ∀ fn, decodeMatrix fn = none ↔ 0x6 ≤ fn.toNat := by decide

theorem decodeSampler_eq_none_iff : ∀ fn, decodeSampler fn = none ↔ 0x2 ≤ fn.toNat := by decide

theorem decodeCodec_eq_none_iff : ∀ fn, decodeCodec fn = none ↔ 0x6 ≤ fn.toNat := by decide

/-- An opcode is reserved from the first unused function of its family on, and in the families from 4 on. -/
theorem decodeOpcode_eq_none_iff (fam fn : BitVec 4) :
    decodeOpcode fam fn = none ↔
      (fam.toNat = 0 ∧ 0xA ≤ fn.toNat) ∨ (fam.toNat = 1 ∧ 0x6 ≤ fn.toNat) ∨
      (fam.toNat = 2 ∧ 0x2 ≤ fn.toNat) ∨ (fam.toNat = 3 ∧ 0x6 ≤ fn.toNat) ∨ 4 ≤ fam.toNat := by
  unfold decodeOpcode
  split
  · simp [decodeRing_eq_none_iff]
  · simp [decodeMatrix_eq_none_iff]
  · simp [decodeSampler_eq_none_iff]
  · simp [decodeCodec_eq_none_iff]
  · next h0 h1 h2 h3 =>
    have hfam : 4 ≤ fam.toNat := by
      simp only [imp_false] at h0 h1 h2 h3
      bv_omega
    simp [hfam]

theorem decode_error_iff (w : Word) :
    (∃ e, decode w = .error e) ↔ wordReserved w ≠ 0 ∨ decodeOpcode (wordFam w) (wordFn w) = none := by
  have herr : (∃ e, decode w = .error e) ↔ ∀ i, decode w ≠ .ok i := by
    cases decode w <;> simp
  simp only [herr, ne_eq, decode_eq_ok_iff, not_and, Option.eq_none_iff_forall_ne_some, ← imp_iff_not_or]
  exact forall_comm

/-- Settles O3: the fields of the word as numbers turn the two causes of R85 into ranges of its opcode. -/
theorem illegalWordsByNumber : Obligations.IllegalWordsByNumber := by
  intro w
  rw [decode_error_iff, decodeOpcode_eq_none_iff, ne_eq, ← BitVec.toNat_inj, wordReserved_toNat, wordFam_toNat,
    wordFn_toNat, BitVec.ofNat_eq_ofNat, BitVec.toNat_ofNat]
  dsimp only
  omega

/-- Settles O1: the word of each row is its command's encoding; the last two words are refused by the opcode map
and by RSVD. -/
theorem tableWordsDecode : Obligations.TableWordsDecode :=
  ⟨decode_encode .nop, decode_encode .eRed, decode_encode .eAdd, decode_encode .eSub, decode_encode .eNeg,
    decode_encode .eMul, decode_encode .eEnc, decode_encode .eDec, decode_encode .eEq, decode_encode .eCteq,
    decode_encode .mAdd, decode_encode .mSub, decode_encode .mMul, decode_encode .mTranspose, decode_encode .mEq,
    decode_encode .mCteq, decode_encode .sSample, decode_encode .sSampleMat, decode_encode .cEncode,
    decode_encode .cDecode, decode_encode .cPack, decode_encode .cUnpack, decode_encode .cStoreLe,
    decode_encode .cLoadLe, rfl, rfl⟩

end Sys2Proof

namespace Sys2Proof.Machine

/-! ### A CMD write (60_exceptions.md R221 checks 1 and 2) -/

theorem commandWrite_of_busy (w : Word) {s : State} (hb : s.busy = true) :
    commandWrite w s = .next (s.raiseError .busy) := by
  simp [commandWrite, hb]

theorem commandWrite_of_illegal {w : Word} {s : State} {e : DecodeReject} (hb : s.busy = false)
    (he : decode w = .error e) : commandWrite w s = .next (s.raiseError .illegalCmd) := by
  simp [commandWrite, hb, he]

/-- A register write at CMD's offset is a CMD write, whatever the block is doing (20_memory.md R67). -/
theorem step_cmdWrite {s : State} {w : Word} {rest : List Input} (hs : s.running)
    (hi : s.inputs = .csr (.write 4 0x010 w) :: rest) : step s = commandWrite w (s.took rest) := by
  rw [step_takeInput hs hi]
  rfl

/-- Settles O6: check 1 or check 2 refuses the write, and the error action records its code and nothing else. -/
theorem refusedCmdWriteOnlyRecordsError : Obligations.RefusedCmdWriteOnlyRecordsError := by
  intro s w rest hs hi recorded
  constructor
  · intro hb
    exact (step_cmdWrite hs hi).trans (commandWrite_of_busy w hb)
  · rintro hb ⟨e, he⟩
    exact (step_cmdWrite hs hi).trans (commandWrite_of_illegal hb he)

end Sys2Proof.Machine

/-! PROOFS. The ring element commands: when they complete, and that the values they leave in RES are the exact
integer results of 40_ring_element.md. -/

namespace Sys2Proof.Machine

/-! ### The completion of a ring element command -/

/-- Family 0 of the opcode map (30_encoding.md R82). -/
def ringCommands : List Instr := [.nop, .eRed, .eAdd, .eSub, .eNeg, .eMul, .eEnc, .eDec, .eEq, .eCteq]

/-- The rows of the ring element commands in the tables of 30_encoding.md R83, R84. -/
theorem ring_uses_no_lmem {L : Latched} (hi : L.op ∈ ringCommands) :
    usesPset L.op = false ∧ needsGroupsOf8 L.op = false ∧ L.dims = [] ∧ L.sources = [] ∧ L.dest = none := by
  obtain ⟨op, regs⟩ := L
  cases op
  case nop | eRed | eAdd | eSub | eNeg | eMul | eEnc | eDec | eEq | eCteq => exact ⟨rfl, rfl, rfl, rfl, rfl⟩
  all_goals simp [ringCommands] at hi

/-- Only a reserved B can fail the checks of a ring element command (60_exceptions.md R221). -/
theorem issueCheck_of_ring {L : Latched} (size : Nat) (hi : L.op ∈ ringCommands)
    (hB : usesB L.op = false ∨ L.B = 2 ∨ L.B = 3 ∨ L.B = 4) : issueCheck size L = none := by
  obtain ⟨hpset, hgroups, hdims, hsrc, hdst⟩ := ring_uses_no_lmem hi
  have hcfg : L.cfgBad = false := by
    simpa [Latched.cfgBad, hpset, or_iff_not_imp_left] using hB
  have hregions : L.regions = [] := by simp [Latched.regions, hsrc, hdst]
  exact issueCheck_eq_none.2 ⟨hcfg, by simp [Latched.dimBad, hdims, hgroups], by simp [Latched.misaligned, hregions],
    by simp [Latched.outOfRange, hregions], by simp [Latched.overlapBad, hdst]⟩

/-- A ring element command in flight completes, unless it uses a reserved B. -/
theorem exec_of_ring {s : State} {L : Latched} {i : Instr} (h : s.inflight = some L) (hop : L.op = i)
    (hi : i ∈ ringCommands) (hB : usesB i = false ∨ L.B = 2 ∨ L.B = 3 ∨ L.B = 4) :
    exec i s = .next (effectOf i L s).finish := by
  subst hop
  exact exec_of_ready ⟨h, rfl, issueCheck_of_ring _ hi hB⟩

/-- A completion whose effect is to set RES changes RES, DONE and BUSY. -/
theorem exec_of_ring_setRes {s : State} {L : Latched} {i : Instr} {v : Nat} (h : s.inflight = some L)
    (hop : L.op = i) (hi : i ∈ ringCommands) (hB : usesB i = false ∨ L.B = 2 ∨ L.B = 3 ∨ L.B = 4)
    (hv : effectOf i L s = s.setRes v) :
    exec i s = .next { s with done := true, inflight := none, res := BitVec.ofNat 32 v } := by
  rw [exec_of_ring h hop hi hB, hv]
  rfl

/-- Settles O12: NOP completes with no effect but the end of the completion. -/
theorem nopOnlySetsDone : Obligations.NopOnlySetsDone :=
  fun _ _ h hop => exec_of_ring h hop (by decide) (.inl rfl)

/-! ### Exact integer results mod q (40_ring_element.md R100, R101) -/

theorem Latched.D_eq (L : Latched) : L.D = 15 + L.regs.cfg.dsel.toNat := by
  unfold Latched.D
  cases L.regs.cfg.dsel <;> rfl

theorem Latched.q_cast (L : Latched) : (L.q : Int) = 2 ^ (15 + L.regs.cfg.dsel.toNat) := by
  rw [Latched.q, L.D_eq, Nat.cast_pow, Nat.cast_ofNat]

/-- `(q - x) mod q` is the residue of -x. -/
theorem negMod_cast {q x : Nat} (h : x ≤ q) : (negMod q x : Int) = -(x : Int) % q := by
  rw [negMod, Int.natCast_emod, Nat.cast_sub h, sub_eq_add_neg, Int.add_emod_left]

/-- Adding the negation is subtracting (R105). -/
theorem add_negMod_cast {q y : Nat} (x : Nat) (h : y ≤ q) :
    (((x + negMod q y) % q : Nat) : Int) = ((x : Int) - y) % q := by
  rw [Int.natCast_emod, Nat.cast_add, negMod_cast h, Int.add_emod_emod, sub_eq_add_neg]

section Operands
variable (L : Latched)

theorem Latched.a_cast : (L.a : Int) = (L.regs.opa.toNat : Int) % L.q := Int.natCast_emod _ _

theorem Latched.b_cast : (L.b : Int) = (L.regs.opb.toNat : Int) % L.q := Int.natCast_emod _ _

theorem Latched.a_le_q : L.a ≤ L.q := (Nat.mod_lt _ L.q_pos_le.1).le

theorem Latched.b_le_q : L.b ≤ L.q := (Nat.mod_lt _ L.q_pos_le.1).le

theorem Latched.add_cast :
    (((L.a + L.b) % L.q : Nat) : Int) = ((L.regs.opa.toNat : Int) + L.regs.opb.toNat) % L.q := by
  rw [Int.natCast_emod, Nat.cast_add, L.a_cast, L.b_cast, ← Int.add_emod]

theorem Latched.sub_cast :
    (((L.a + negMod L.q L.b) % L.q : Nat) : Int) = ((L.regs.opa.toNat : Int) - L.regs.opb.toNat) % L.q := by
  rw [add_negMod_cast L.a L.b_le_q, L.a_cast, L.b_cast, ← Int.sub_emod]

theorem Latched.neg_cast : (negMod L.q L.a : Int) = -(L.regs.opa.toNat : Int) % L.q := by
  rw [negMod_cast L.a_le_q, L.a_cast]
  exact (Int.mod_modEq _ _).neg

theorem Latched.mul_cast :
    ((L.a * L.b % L.q : Nat) : Int) = (L.regs.opa.toNat : Int) * L.regs.opb.toNat % L.q := by
  rw [Int.natCast_emod, Nat.cast_mul, L.a_cast, L.b_cast, ← Int.mul_emod]

end Operands

/-- A completion that sets RES to the residue of an integer. -/
theorem exec_of_ring_emod {s : State} {L : Latched} {i : Instr} {v : Nat} {z : Int} (h : s.inflight = some L)
    (hop : L.op = i) (hi : i ∈ ringCommands) (hB : usesB i = false)
    (hv : effectOf i L s = s.setRes v) (hz : (v : Int) = z % L.q) :
    exec i s = .next { s with done := true, inflight := none,
                              res := BitVec.ofNat 32 (z % 2 ^ (15 + L.regs.cfg.dsel.toNat)).toNat } := by
  rw [← L.q_cast, ← hz, Int.toNat_natCast]
  exact exec_of_ring_setRes h hop hi (.inl hB) hv

/-- Settles O13: each command's effect is RES <- the residue of the exact integer result. -/
theorem ringOperationsWrapModQ : Obligations.RingOperationsWrapModQ := by
  intro s L h a b q result
  refine ⟨fun hop => ?red, fun hop => ?add, fun hop => ?sub, fun hop => ?neg, fun hop => ?mul⟩
  case red => exact exec_of_ring_emod h hop (by decide) rfl rfl L.a_cast
  case add => exact exec_of_ring_emod h hop (by decide) rfl rfl L.add_cast
  case sub => exact exec_of_ring_emod h hop (by decide) rfl rfl L.sub_cast
  case neg => exact exec_of_ring_emod h hop (by decide) rfl rfl L.neg_cast
  case mul => exact exec_of_ring_emod h hop (by decide) rfl rfl L.mul_cast

/-- Settles O15: the latched operands are the reduced ones. -/
theorem elementEqualityResults : Obligations.ElementEqualityResults := by
  intro s L h
  constructor <;> intro hop
  · rw [exec_of_ring_setRes h hop (by decide) (.inl rfl) rfl, apply_ite (BitVec.ofNat 32)]
    rfl
  · rw [exec_of_ring_setRes h hop (by decide) (.inl rfl) rfl, eqMask, apply_ite (BitVec.ofNat 32)]
    rfl

/-! ### Encoding and decoding (40_ring_element.md R108, R109, R112) -/

theorem Latched.B_lt_D (L : Latched) : L.B < L.D := by
  have := L.B_lt
  have := L.D_eq
  omega

/-- k mod 2^B fills the high B bits, so its encoding is canonical as it stands. -/
theorem encodeElem_eq {d b : Nat} (h : b ≤ d) (k : Nat) : encodeElem d b k = k % 2 ^ b * 2 ^ (d - b) := by
  apply Nat.mod_eq_of_lt
  calc k % 2 ^ b * 2 ^ (d - b) < 2 ^ b * 2 ^ (d - b) :=
        Nat.mul_lt_mul_of_pos_right (Nat.mod_lt _ (Nat.two_pow_pos b)) (Nat.two_pow_pos _)
    _ = 2 ^ d := pow_mul_pow_sub 2 h

/-- Rounding v * 2^B / q is rounding v to a multiple of 2^(D - B): 2^B cancels. -/
theorem decodeElem_eq {d b : Nat} (h : b < d) (v : Nat) :
    decodeElem d b v = (v + 2 ^ (d - b - 1)) / 2 ^ (d - b) % 2 ^ b := by
  have hhalf : 2 ^ (d - 1) = 2 ^ (d - b - 1) * 2 ^ b := by rw [← Nat.pow_add]; congr 1; omega
  have hq : 2 ^ d = 2 ^ (d - b) * 2 ^ b := (Nat.pow_sub_mul_pow 2 h.le).symm
  rw [decodeElem, hhalf, hq, ← Nat.add_mul, Nat.mul_div_mul_right _ _ (Nat.two_pow_pos b)]

/-- Settles O14: both formulas are the model's with the powers of two cancelled. -/
theorem elementEncodeAndDecode : Obligations.ElementEncodeAndDecode := by
  intro s L h hB
  constructor <;> intro hop
  · rw [exec_of_ring_setRes h hop (by decide) (.inr hB) rfl, encodeElem_eq L.B_lt_D.le]
  · rw [exec_of_ring_setRes h hop (by decide) (.inr hB) rfl, decodeElem_eq L.B_lt_D]
    rfl

/-- Decoding takes the high B bits of v plus half a step, and only v mod q matters. -/
theorem decodeElem_emod {d b : Nat} (h : b < d) (z : Int) :
    (decodeElem d b (z % 2 ^ d).toNat : Int) = (z + 2 ^ (d - b - 1)) % 2 ^ d / 2 ^ (d - b) := by
  have hpos : (0 : Int) < 2 ^ d := by positivity
  rw [decodeElem_eq h, ← Nat.mod_mul_right_div_self, Nat.pow_sub_mul_pow 2 h.le]
  push_cast
  rw [Int.toNat_of_nonneg (Int.emod_nonneg _ hpos.ne'), Int.emod_add_emod]

/-- Noise below half a step does not leave the step of k: with half a step added it is in [0, 2^(D - B)). -/
theorem decodeElem_encodeElem_add {d b k : Nat} {e : Int} (h : b < d) (hk : k < 2 ^ b)
    (hlo : -2 ^ (d - b - 1) ≤ e) (hhi : e < 2 ^ (d - b - 1)) :
    decodeElem d b (((encodeElem d b k : Int) + e) % 2 ^ d).toNat = k := by
  have hstep : (2 : Int) ^ (d - b) = 2 ^ (d - b - 1) + 2 ^ (d - b - 1) := by
    rw [← mul_two, ← pow_succ]
    congr 1
    omega
  have hcode : (encodeElem d b k : Int) = k * 2 ^ (d - b) := by
    rw [encodeElem_eq h.le, Nat.mod_eq_of_lt hk, Nat.cast_mul, Nat.cast_pow, Nat.cast_ofNat]
  have htop : (k : Int) * 2 ^ (d - b) + 2 ^ (d - b) ≤ 2 ^ d := by
    rw [← add_one_mul, ← pow_mul_pow_sub (2 : Int) h.le]
    exact mul_le_mul_of_nonneg_right (by exact_mod_cast hk) (by positivity)
  have hlow : (0 : Int) ≤ k * 2 ^ (d - b) := by positivity
  apply Int.natCast_inj.1
  calc (decodeElem d b (((encodeElem d b k : Int) + e) % 2 ^ d).toNat : Int)
      = ((e + 2 ^ (d - b - 1)) + k * 2 ^ (d - b)) % 2 ^ d / 2 ^ (d - b) := by
        rw [decodeElem_emod h, hcode]
        congr 2
        ring
    _ = ((e + 2 ^ (d - b - 1)) + k * 2 ^ (d - b)) / 2 ^ (d - b) := by
        rw [Int.emod_eq_of_lt (by linarith) (by linarith)]
    _ = (e + 2 ^ (d - b - 1)) / 2 ^ (d - b) + k := Int.add_mul_ediv_right _ _ (by positivity)
    _ = k := by rw [Int.ediv_eq_zero_of_lt (by linarith) (by linarith), zero_add]

/-- Settles O16: every legal pair has B < D. -/
theorem decodeToleratesNoise : Obligations.DecodeToleratesNoise :=
  fun _ _ _ _ hd hb => decodeElem_encodeElem_add (by omega)

end Sys2Proof.Machine

/-! PROOFS. The matrix commands: the elements that each completion stores and the comparison of all elements, and the
two properties of 41_matrix.md that follow. -/

namespace Sys2Proof.Machine

/-! ### The elements that a completion stores -/

/-- A reduced value is canonical (20_memory.md R62). -/
theorem Latched.mod_q_lt_q (L : Latched) (x : Nat) : x % L.q < L.q := Nat.mod_lt _ L.q_pos_le.1

/-- A command that stores `n` elements below q completes, and they read back as they are. -/
theorem exec_of_storeElems {i : Instr} {s : State} {L : Latched} {n reads : Nat} {f : Nat → Nat} (h : s.ready i L)
    (heff : effectOf i L s = storeElems L n reads f s) (hf : ∀ k, f k < L.q) :
    ∃ t, exec i s = .next t ∧ wroteElems s t L n ∧
      ∀ k < n, storedWord t.lmem (L.dst + 2 * k) = some (f k) := by
  refine ⟨(storeElems L n reads f s).finish, heff ▸ exec_of_ready h, storeElems_wroteElems s L n reads f,
    fun k hk => ?_⟩
  rw [storeElems_storedWord s L f hk, Nat.mod_eq_of_lt (hf k)]

section Elements

variable {L : Latched} {s : State}

theorem mAddElem_of_storedElem {k x y : Nat} (hx : storedElem s.lmem L.q (L.src0 + 2 * k) = some x)
    (hy : storedElem s.lmem L.q (L.src1 + 2 * k) = some y) : mAddElem L s k = (x + y) % L.q := by
  rw [mAddElem, elemOf_of_storedElem hx, elemOf_of_storedElem hy]

/-- Adding the negation gives the integer difference mod q (41_matrix.md R132). -/
theorem mSubElem_of_storedElem {k x y : Nat} (hx : storedElem s.lmem L.q (L.src0 + 2 * k) = some x)
    (hy : storedElem s.lmem L.q (L.src1 + 2 * k) = some y) :
    mSubElem L s k = (((x : Int) - y) % L.q).toNat := by
  have hyq : y ≤ L.q := (storedElem_lt L.q_pos_le.1 hy).le
  rw [mSubElem, elemOf_of_storedElem hx, elemOf_of_storedElem hy, ← add_negMod_cast x hyq, Int.toNat_natCast]

theorem mMulElem_of_storedElem {i j : Nat} (hj : j < L.C) {x y : Nat → Nat}
    (hx : ∀ k < L.K, storedElem s.lmem L.q (L.src0 + 2 * (i * L.K + k)) = some (x k))
    (hy : ∀ k < L.K, storedElem s.lmem L.q (L.src1 + 2 * (k * L.C + j)) = some (y k)) :
    mMulElem L s (i * L.C + j) = (∑ k ∈ Finset.range L.K, x k * y k) % L.q := by
  rw [mMulElem, rowMajor_div hj, rowMajor_mod hj, ← sumTo_eq_sum]
  refine congrArg (· % L.q) (sumTo_congr fun k hk => ?_)
  rw [elemOf_of_storedElem (hx k hk), elemOf_of_storedElem (hy k hk)]

theorem mTransposeElem_of_storedElem {i j x : Nat} (hi : i < L.R)
    (hx : storedElem s.lmem L.q (L.src0 + 2 * (i * L.C + j)) = some x) :
    mTransposeElem L s (j * L.R + i) = x := by
  rw [mTransposeElem, rowMajor_mod hi, rowMajor_div hi, elemOf_of_storedElem hx]

end Elements

/-- Settles O17: element k of the result is the reduced sum of the elements k that both sources hold. -/
theorem mAddWritesSums : Obligations.MAddWritesSums := by
  intro s L h
  obtain ⟨t, ht, hw, hval⟩ := exec_of_storeElems h rfl fun _ => L.mod_q_lt_q _
  refine ⟨t, ht, hw, fun k hk x y hx hy => ?_⟩
  rw [hval k hk, mAddElem_of_storedElem hx hy]

/-- Settles O18: the model adds the negation, which is the integer difference mod q. -/
theorem mSubWritesDifferences : Obligations.MSubWritesDifferences := by
  intro s L h
  obtain ⟨t, ht, hw, hval⟩ := exec_of_storeElems h rfl fun _ => L.mod_q_lt_q _
  refine ⟨t, ht, hw, fun k hk x y hx hy => ?_⟩
  rw [hval k hk, mSubElem_of_storedElem hx hy]

/-- Settles O19: element i*C + j of the result is row i of X times column j of Y. -/
theorem mMulWritesInnerProducts : Obligations.MMulWritesInnerProducts := by
  intro s L h
  obtain ⟨t, ht, hw, hval⟩ := exec_of_storeElems h rfl fun _ => L.mod_q_lt_q _
  refine ⟨t, ht, hw, fun i hi j hj x y hx hy => ?_⟩
  rw [hval _ (rowMajor_lt hi hj), mMulElem_of_storedElem hj hx hy]

/-- Settles O20: the result has C rows of R columns, so X[i][j] is its element j*R + i. -/
theorem mTransposeSwapsIndices : Obligations.MTransposeSwapsIndices := by
  intro s L h
  obtain ⟨t, ht, hw, hval⟩ := exec_of_storeElems h rfl fun _ => L.mod_q_lt_q _
  have hN : L.N = L.C * L.R := Nat.mul_comm L.R L.C
  refine ⟨t, ht, hN ▸ hw, fun i hi j hj x hx => ?_⟩
  rw [hval _ (hN ▸ rowMajor_lt hj hi), mTransposeElem_of_storedElem hi hx]

/-! ### The comparison of all elements (41_matrix.md R136, R137) -/

theorem allEqual_iff {L : Latched} {s : State} {n : Nat} {x y : Nat → Nat}
    (hx : ∀ k < n, storedElem s.lmem L.q (L.src0 + 2 * k) = some (x k))
    (hy : ∀ k < n, storedElem s.lmem L.q (L.src1 + 2 * k) = some (y k)) :
    allEqual L s n = true ↔ ∀ k < n, x k = y k := by
  induction n with
  | zero => simp [allEqual]
  | succ n ih =>
    rw [allEqual, elemOf_of_storedElem (hx n n.lt_succ_self), elemOf_of_storedElem (hy n n.lt_succ_self),
      Bool.and_eq_true, decide_eq_true_eq, Nat.forall_lt_succ_right,
      ih (fun k hk => hx k (hk.trans n.lt_succ_self)) (fun k hk => hy k (hk.trans n.lt_succ_self))]

/-- Each element mask is 0xFFFF or 0, so their AND is 0xFFFF if all are and 0 otherwise. -/
theorem maskAll_eq_ite (L : Latched) (s : State) (n : Nat) :
    maskAll L s n = if allEqual L s n then 0xFFFF else 0 := by
  induction n with
  | zero => rfl
  | succ n ih =>
    rw [maskAll, allEqual, ih, eqMask]
    cases allEqual L s n with
    | false => exact Nat.zero_and _
    | true =>
      simp only [if_true, Bool.true_and, decide_eq_true_eq]
      split <;> rfl

theorem setRes_wroteRes (s : State) (v reads : Nat) : wroteRes s ((s.setRes v).countReads reads).finish v := rfl

/-- A command that sets RES to `w` if all elements are equal, and to 0 otherwise. -/
theorem exec_of_allEqual {i : Instr} {s : State} {L : Latched} {w reads : Nat} (h : s.ready i L) (hw : w ≠ 0)
    (heff : effectOf i L s = (s.setRes (if allEqual L s L.N then w else 0)).countReads reads) :
    ∃ t v, exec i s = .next t ∧ wroteRes s t v ∧ (v = 0 ∨ v = w) ∧
      ∀ x y : Nat → Nat,
        (∀ k < L.R * L.C, storedElem s.lmem L.q (L.src0 + 2 * k) = some (x k)) →
        (∀ k < L.R * L.C, storedElem s.lmem L.q (L.src1 + 2 * k) = some (y k)) →
        (v = w ↔ ∀ k < L.R * L.C, x k = y k) := by
  refine ⟨_, _, heff ▸ exec_of_ready h, setRes_wroteRes .., (ite_eq_or_eq ..).symm, fun x y hx hy => ?_⟩
  rw [← allEqual_iff hx hy]
  exact ⟨fun hv => by_contra fun hne => hw (hv.symm.trans (if_neg hne)), fun he => if_pos he⟩

/-- Settles O21: both commands compare all elements, and M_CTEQ's mask says the same as M_EQ's truth value. -/
theorem matrixEqualityResults : Obligations.MatrixEqualityResults :=
  fun s L => ⟨fun h => exec_of_allEqual h (by decide) rfl,
    fun h => exec_of_allEqual h (by decide) (by rw [← maskAll_eq_ite]; rfl)⟩

/-! ### Two commands one after the other -/

/-- A stored canonical word is the element it holds. -/
theorem storedElem_of_storedWord {m : Memory} {q a x : Nat} (h : storedWord m a = some x) (hx : x < q) :
    storedElem m q a = some x := by
  rw [storedElem, h, Option.map_some, Nat.mod_eq_of_lt hx]

/-- An element outside the written region is as before. -/
theorem wroteRegion.storedElem_eq {s t : State} {r : Region} {a : Nat} (h : wroteRegion s t r) (q : Nat)
    (ha : a + 2 ≤ r.base ∨ r.base + r.len ≤ a) : storedElem t.lmem q a = storedElem s.lmem q a := by
  obtain ⟨-, -, hframe⟩ := h
  have h0 := hframe a ((Region.covers_eq_false ..).2 (by omega))
  have h1 := hframe (a + 1) ((Region.covers_eq_false ..).2 (by omega))
  simp only [storedElem, storedWord, h0, h1]

/-- (x + y) - y = x in Z_q. -/
theorem add_sub_cancel_mod {q x : Nat} (y : Nat) (hx : x < q) : ((((x + y) % q : Nat) - (y : Int)) % q).toNat = x := by
  rw [Int.natCast_emod, Int.emod_sub_emod, Nat.cast_add, add_sub_cancel_right, ← Int.natCast_emod, Int.toNat_natCast,
    Nat.mod_eq_of_lt hx]

/-- Settles O22: M_SUB reads the sums that M_ADD left at DST and the elements of SRC1, which lie outside what M_ADD
wrote. -/
theorem subtractUndoesAdd : Obligations.SubtractUndoesAdd := by
  intro s t u v L M hs ht hu hmem hq hN h0 h1 hdisj hv k hk x y hx hy
  obtain ⟨_, ht', ⟨hwrote, -⟩, hsum⟩ := mAddWritesSums s L hs
  cases ht'.symm.trans ht
  obtain ⟨_, hv', -, hdiff⟩ := mSubWritesDifferences u M hu
  cases hv'.symm.trans hv
  have hsum0 : storedElem u.lmem M.q (M.src0 + 2 * k) = some ((x + y) % L.q) := by
    rw [hmem, hq, h0]
    exact storedElem_of_storedWord (hsum k hk x y hx hy) (L.mod_q_lt_q _)
  have hy1 : storedElem u.lmem M.q (M.src1 + 2 * k) = some y := by
    rw [hmem, hq, h1, hwrote.storedElem_eq L.q (by simp only [elemRegion]; omega), hy]
  rw [hdiff k (hN ▸ hk) _ _ hsum0 hy1, hq, add_sub_cancel_mod y (storedElem_lt L.q_pos_le.1 hx)]

/-- Settles O23: element k = i*C + j goes to j*R + i and from there back to i*C + j. -/
theorem transposeTwiceIsIdentity : Obligations.TransposeTwiceIsIdentity := by
  intro s t u v L M hs ht hu hmem hq hR hC h0 hv k hk x hx
  obtain ⟨_, ht', -, hfirst⟩ := mTransposeSwapsIndices s L hs
  cases ht'.symm.trans ht
  obtain ⟨_, hv', -, hsecond⟩ := mTransposeSwapsIndices u M hu
  cases hv'.symm.trans hv
  have hi : k / L.C < L.R := Nat.div_lt_of_lt_mul (by rwa [Nat.mul_comm])
  have hj : k % L.C < L.C := Nat.mod_lt k (Nat.pos_of_lt_mul_left hk)
  have hk' : k / L.C * L.C + k % L.C = k := Nat.div_add_mod' k L.C
  have hmid : storedElem u.lmem M.q (M.src0 + 2 * (k % L.C * M.C + k / L.C)) = some x := by
    rw [hmem, hq, h0, hC]
    exact storedElem_of_storedWord (hfirst _ hi _ hj x (by rwa [hk'])) (storedElem_lt L.q_pos_le.1 hx)
  have hlast := hsecond _ (hR ▸ hj) _ (hC ▸ hi) x hmid
  rwa [hR, hk'] at hlast

end Sys2Proof.Machine

/-! PROOFS. The error sampler: the tables that the frequencies give, a sample as a signed count of exceeded entries
mod q, and the two sampling commands. -/

namespace Sys2Proof.Machine

/-! ### The tables of the ROM (42_error_sampler.md R160) -/

/-- Entry `z` of the running sums is the start plus the first `z` summands. -/
theorem runningSums_getElem? (t : Nat) (fs : List Nat) {z : Nat} (h : z ≤ fs.length) :
    (runningSums t fs)[z]? = some (t + ∑ y ∈ Finset.range z, fs.getD y 0) := by
  induction z generalizing t fs with
  | zero => cases fs <;> rfl
  | succ z ih =>
    cases fs with
    | nil => cases h
    | cons f fs =>
      rw [runningSums, List.getElem?_cons_succ, ih (t + f) fs (Nat.le_of_succ_le_succ h), Finset.sum_range_succ']
      simp only [List.getD_cons_succ, List.getD_cons_zero, Nat.add_assoc, Nat.add_comm f]

/-- T[0] = CHI[0] div 2 - 1, and T[z] = T[0] + the sum of CHI[1] to CHI[z]. -/
theorem cdfOf_getElem? {chi : List Nat} {z : Nat} (h : z < chi.length) :
    (cdfOf chi)[z]? = some (chi.headD 0 / 2 - 1 + ∑ y ∈ Finset.Icc 1 z, chi.getD y 0) := by
  cases chi with
  | nil => cases h
  | cons f fs =>
    have hshift : ∑ y ∈ Finset.Icc 1 z, (f :: fs).getD y 0 = ∑ y ∈ Finset.range z, fs.getD y 0 := by
      rw [← Finset.Ico_add_one_right_eq_Icc, Finset.sum_Ico_eq_sum_range]
      simp only [Nat.add_sub_cancel, Nat.add_comm 1, List.getD_cons_succ]
    rw [hshift]
    exact runningSums_getElem? _ fs (Nat.le_of_lt_succ h)

/-- Settles O24: PSET selects the frequency table, and T(p) is its running sum. -/
theorem cdfTableFromFrequencies : Obligations.CdfTableFromFrequencies := by
  intro p sel chi h
  have hsel : chiOf p sel = chi := by
    rcases h with ⟨rfl, rfl⟩ | ⟨rfl, rfl⟩ | ⟨rfl, rfl⟩ <;> rfl
  rw [cdfTable, hsel]
  exact ⟨cdfOf_length chi, fun _ => cdfOf_getElem?⟩

/-- Settles O25, by evaluating the running sums of the three default tables. -/
theorem defaultCdfTables : Obligations.DefaultCdfTables :=
  ⟨rfl, rfl, rfl⟩

/-! ### A sample (42_error_sampler.md R163) -/

theorem countBelow_eq_length_filter (t : Nat) (table : List Nat) :
    countBelow t table = (table.filter (fun e => decide (e < t))).length := by
  induction table with
  | nil => rfl
  | cons e es ih =>
    rw [countBelow, ih, List.filter_cons]
    by_cases h : e < t <;> simp [h, Nat.add_comm]

theorem sample_of_odd (table : List Nat) (d : Nat) {r : Nat} (h : r % 2 = 1) :
    sample table d r = negMod (2 ^ d) (countBelow (r / 2) table) :=
  if_pos h

theorem sample_of_even (table : List Nat) (d : Nat) {r : Nat} (h : r % 2 = 0) :
    sample table d r = countBelow (r / 2) table :=
  if_neg (by omega)

/-- With a table shorter than q a sample is the residue of the signed count. -/
theorem sample_eq_signed_count {table : List Nat} {d : Nat} (r : Nat) (h : table.length < 2 ^ d) :
    sample table d r =
      ((if r % 2 = 1 then -(countBelow (r / 2) table : Int) else countBelow (r / 2) table) % 2 ^ d).toNat := by
  have hq : ((2 ^ d : Nat) : Int) = 2 ^ d := by rw [Nat.cast_pow, Nat.cast_ofNat]
  have hn : countBelow (r / 2) table < 2 ^ d := (countBelow_le_length _ _).trans_lt h
  rw [← hq]
  rcases Nat.mod_two_eq_zero_or_one r with hr | hr
  · rw [sample_of_even table d hr, if_neg (by omega), ← Int.natCast_emod, Int.toNat_natCast, Nat.mod_eq_of_lt hn]
  · rw [sample_of_odd table d hr, if_pos hr, ← negMod_cast hn.le, Int.toNat_natCast]

theorem negMod_zero (q : Nat) : negMod q 0 = 0 := Nat.mod_self q

theorem negMod_of_pos {q x : Nat} (h0 : 0 < x) (h : x ≤ q) : negMod q x = q - x :=
  Nat.mod_eq_of_lt (by omega)

theorem negMod_negMod {q x : Nat} (h : x < q) : negMod q (negMod q x) = x := by
  rcases Nat.eq_zero_or_pos x with rfl | h0
  · rw [negMod_zero, negMod_zero]
  · rw [negMod_of_pos h0 h.le, negMod_of_pos (by omega) (by omega), Nat.sub_sub_self h.le]

/-- Flipping bit 0 keeps the magnitude bits and flips the sign (42_error_sampler.md R167). -/
theorem sample_xor_one {table : List Nat} {d : Nat} (r : Nat) (h : table.length < 2 ^ d) :
    sample table d (r ^^^ 1) = negMod (2 ^ d) (sample table d r) := by
  have hmag : (r ^^^ 1) / 2 = r / 2 := by rw [Nat.xor_div_two, Nat.xor_zero]
  have hsign : (r ^^^ 1) % 2 = (r + 1) % 2 := Nat.xor_mod_two_eq
  rcases Nat.mod_two_eq_zero_or_one r with hr | hr
  · rw [sample_of_even table d hr, sample_of_odd table d (by omega), hmag]
  · rw [sample_of_odd table d hr, sample_of_even table d (by omega), hmag,
      negMod_negMod ((countBelow_le_length _ _).trans_lt h)]

/-- A sample is its count, or q minus it. -/
theorem sample_near_zero {table : List Nat} {d : Nat} (r : Nat) (h : table.length < 2 ^ d) :
    sample table d r ≤ table.length ∨ 2 ^ d - table.length ≤ sample table d r := by
  have hn := countBelow_le_length (r / 2) table
  rcases Nat.mod_two_eq_zero_or_one r with hr | hr
  · rw [sample_of_even table d hr]
    exact .inl hn
  · rw [sample_of_odd table d hr]
    rcases Nat.eq_zero_or_pos (countBelow (r / 2) table) with h0 | h0
    · rw [h0, negMod_zero]
      exact .inl (Nat.zero_le _)
    · rw [negMod_of_pos h0 (by omega)]
      exact .inr (by omega)

/-- Settles O28: the sign bit chooses between the count and its negation, and the count is at most the table's
length. -/
theorem sampleSignSymmetryAndRange : Obligations.SampleSignSymmetryAndRange :=
  fun _ _ r h => ⟨sample_xor_one r h, sample_near_zero r h, sample_lt r h⟩

/-! ### The sampling commands (42_error_sampler.md R164, R165) -/

/-- The tables of legal parameters are shorter than q. -/
theorem cdfTable_length_lt_q {p : Config.Params} (hp : p.wellFormed = true) (sel : BitVec 2) (L : Latched) :
    (cdfTable p sel).length < L.q := by
  have hlen := cdfTable_length_le hp sel
  have hq : 2 ^ 15 ≤ L.q := Nat.pow_le_pow_right (by decide) (L.D_eq ▸ Nat.le_add_right _ _)
  omega

/-- Only PSET = 3 can fail the checks of S_SAMPLE (60_exceptions.md R221). -/
theorem issueCheck_of_sSample {L : Latched} (size : Nat) (hop : L.op = .sSample) (hp : L.regs.cfg.pset ≠ 3) :
    issueCheck size L = none := by
  have hregions : L.regions = [] := by simp [Latched.regions, Latched.sources, Latched.dest, hop]
  exact issueCheck_eq_none.2 ⟨by simpa [Latched.cfgBad, hop, usesB, usesPset] using hp,
    by simp [Latched.dimBad, Latched.dims, needsGroupsOf8, hop], by simp [Latched.misaligned, hregions],
    by simp [Latched.outOfRange, hregions], by simp [Latched.overlapBad, Latched.dest, hop]⟩

/-- The low half of OPA without its bit 0 is OPA[15:1]. -/
theorem low_half_div_two (w : Word) : w.toNat % 2 ^ 16 / 2 = (w.extractLsb' 1 15).toNat := by
  rw [BitVec.extractLsb'_toNat, Nat.shiftRight_eq_div_pow]
  omega

theorem low_half_mod_two_eq_one_iff (w : Word) : w.toNat % 2 ^ 16 % 2 = 1 ↔ w.getLsbD 0 = true := by
  rw [BitVec.getLsbD, Nat.testBit_zero, decide_eq_true_iff]
  omega

/-- Settles O26: the only check of S_SAMPLE is PSET, and RES takes the sample of OPA's low half. -/
theorem sSampleCountsExceededEntries : Obligations.SSampleCountsExceededEntries := by
  intro s L hp h hop hpset n
  have hsample := sample_eq_signed_count (L.regs.opa.toNat % 2 ^ 16) (cdfTable_length_lt_q hp L.regs.cfg.pset L)
  simp only [low_half_div_two, low_half_mod_two_eq_one_iff, countBelow_eq_length_filter] at hsample
  rw [exec_of_ready ⟨h, hop, issueCheck_of_sSample _ hop hpset⟩, ← hsample]
  rfl

/-- Settles O27: element k of the result is the sample of the 16-bit word k of the source, which is canonical. -/
theorem sSampleMatSamplesEveryEntry : Obligations.SSampleMatSamplesEveryEntry := by
  intro s L hp h
  have hlen := cdfTable_length_lt_q hp L.regs.cfg.pset L
  obtain ⟨t, ht, hw, hval⟩ := exec_of_storeElems (f := sampleEntry L s) h rfl fun _ => sample_lt _ hlen
  refine ⟨t, ht, hw, fun k hk r hr => ?_⟩
  rw [hval k hk, sampleEntry, memRead_of_storedWord hr, sample_eq_signed_count r hlen, countBelow_eq_length_filter]

end Sys2Proof.Machine

/-! PROOFS. The codec: the bits of stored bytes as bits of the two streams, the elements and bytes that each completion
stores, and the round trips of 43_codec.md R187. -/

namespace Sys2Proof.Machine

/-! ### Bits and sums of bits -/

theorem decide_natBit_eq_one (v k : Nat) : decide (natBit v k = 1) = v.testBit k :=
  Nat.testBit_eq_decide_div_mod_eq.symm

/-- Bit `l` of a number given by its bits, least significant first. -/
theorem testBit_sum_bits (c : Nat → Bool) {n l : Nat} (hl : l < n) :
    (∑ l ∈ Finset.range n, (c l).toNat * 2 ^ l).testBit l = c l := by
  rw [← sumTo_eq_sum, sumTo_bits_testBit (fun k => Bool.toNat_lt (c k)) hl]
  cases c l <;> rfl

theorem sum_bits_lt (c : Nat → Bool) (n : Nat) : ∑ l ∈ Finset.range n, (c l).toNat * 2 ^ l < 2 ^ n := by
  rw [← sumTo_eq_sum]
  exact sumTo_bits_lt (fun k => Bool.toNat_lt (c k)) n

/-- A number below 2^n is the sum of its n bits, most significant first. -/
theorem sum_testBit_msbFirst {n x : Nat} (hx : x < 2 ^ n) :
    ∑ l ∈ Finset.range n, (x.testBit (n - 1 - l)).toNat * 2 ^ (n - 1 - l) = x := by
  rw [Finset.sum_range_reflect (fun l => (x.testBit l).toNat * 2 ^ l) n]
  refine Nat.eq_of_testBit_eq fun l => ?_
  by_cases hl : l < n
  · exact testBit_sum_bits x.testBit hl
  · have hpow : 2 ^ n ≤ 2 ^ l := Nat.pow_le_pow_right (by decide) (Nat.le_of_not_lt hl)
    rw [Nat.testBit_lt_two_pow ((sum_bits_lt x.testBit n).trans_le hpow), Nat.testBit_lt_two_pow (hx.trans_le hpow)]

/-- The bits of a byte written as a sum of 8 bits. -/
theorem byteOfBits_getLsbD {f : Nat → Nat} (hf : ∀ k, f k < 2) {t : Nat} (ht : t < 8) :
    (BitVec.ofNat 8 (sumTo (fun t => f t * 2 ^ t) 8)).getLsbD t = decide (f t = 1) := by
  rw [BitVec.getLsbD_ofNat, sumTo_bits_testBit hf ht, decide_eq_true ht, Bool.true_and]

/-! ### Source bytes -/

theorem srcByte_of_lookup {L : Latched} {s : State} {j : Nat} {b : Byte}
    (h : Memory.lookup s.lmem (L.src0 + j) = some b) : srcByte L s j = b.toNat := by
  rw [srcByte, readByte_of_lookup h]

theorem messageBit_of_lookup {L : Latched} {s : State} {p : Nat} {b : Byte}
    (h : Memory.lookup s.lmem (L.src0 + p / 8) = some b) : messageBit L s p = (b.getLsbD (p % 8)).toNat := by
  rw [messageBit, srcByte_of_lookup h, natBit_eq_testBit]
  rfl

theorem unpackBit_of_lookup {L : Latched} {s : State} {p : Nat} {b : Byte}
    (h : Memory.lookup s.lmem (L.src0 + p / 8) = some b) : unpackBit L s p = (b.getLsbD (7 - p % 8)).toNat := by
  rw [unpackBit, srcByte_of_lookup h, natBit_eq_testBit]
  rfl

theorem Memory.lookup_of_written {m : Memory} {a n j : Nat} (h : Memory.written m a n = true) (hj : j < n) :
    ∃ b, Memory.lookup m (a + j) = some b := by
  induction n generalizing a j with
  | zero => omega
  | succ n ih =>
    obtain ⟨hhead, htail⟩ := Bool.and_eq_true_iff.1 h
    cases j with
    | zero => exact Option.isSome_iff_exists.1 hhead
    | succ j =>
      obtain ⟨b, hb⟩ := ih htail (Nat.lt_of_succ_lt_succ hj)
      exact ⟨b, by rwa [show a + (j + 1) = a + 1 + j by omega]⟩

/-! ### Elements gathered from a stream -/

theorem messageValue_lt (L : Latched) (s : State) (k : Nat) : messageValue L s k < 2 ^ L.B :=
  sumTo_bits_lt (fun _ => natBit_lt_two _ _) L.B

theorem unpackElem_lt (L : Latched) (s : State) (k : Nat) : unpackElem L s k < L.q := by
  rw [unpackElem, sumTo_reverse (fun l => unpackBit L s (k * L.D + l)) L.D]
  exact sumTo_bits_lt (f := fun l => unpackBit L s (k * L.D + (L.D - 1 - l))) (fun _ => natBit_lt_two _ _) L.D

/-- B bits in the high bits of an element make a canonical element. -/
theorem Latched.shift_lt_q (L : Latched) {v : Nat} (hv : v < 2 ^ L.B) : v * 2 ^ (L.D - L.B) < L.q :=
  calc v * 2 ^ (L.D - L.B) < 2 ^ L.B * 2 ^ (L.D - L.B) := Nat.mul_lt_mul_of_pos_right hv (Nat.two_pow_pos _)
    _ = L.q := pow_mul_pow_sub 2 L.B_lt_D.le

/-- Settles O29: stream bit p is bit p mod 8 of the written byte p div 8, and B bits shifted by D - B are below q. -/
theorem cEncodePlacesMessageBits : Obligations.CEncodePlacesMessageBits := by
  intro s L h
  obtain ⟨t, ht, hw, hval⟩ := exec_of_storeElems h rfl fun k => L.shift_lt_q (messageValue_lt L s k)
  refine ⟨t, ht, hw, fun k hk b hb => ?_⟩
  rw [hval k hk, messageValue, ← sumTo_eq_sum, sumTo_congr fun l hl => by rw [messageBit_of_lookup (hb l hl)]]

/-- Settles O32: stream bit p is bit 7 - p mod 8 of the written byte p div 8, and D bits are below q. -/
theorem cUnpackReadsElementBits : Obligations.CUnpackReadsElementBits := by
  intro s L h
  obtain ⟨t, ht, hw, hval⟩ := exec_of_storeElems h rfl fun k => unpackElem_lt L s k
  refine ⟨t, ht, hw, fun k hk b hb => ?_⟩
  rw [hval k hk, unpackElem, ← sumTo_eq_sum, sumTo_congr fun l hl => by rw [unpackBit_of_lookup (hb l hl)]]

/-! ### Bytes laid out by a stream -/

/-- A command that stores `n` bytes completes, and they read back as they are. -/
theorem exec_of_storeByteRun {i : Instr} {s : State} {L : Latched} {n reads : Nat} {f : Nat → Nat} (h : s.ready i L)
    (heff : effectOf i L s = storeByteRun L n reads f s) :
    ∃ t, exec i s = .next t ∧ wroteRegion s t (byteRegion L.dst n) ∧
      ∀ j < n, Memory.lookup t.lmem (L.dst + j) = some (BitVec.ofNat 8 (f j)) :=
  ⟨(storeByteRun L n reads f s).finish, heff ▸ exec_of_ready h, storeByteRun_wroteRegion s L n reads f,
    fun _ hj => storeByteRun_lookup s L f hj⟩

theorem decodedBit_lt_two (L : Latched) (s : State) (p : Nat) : decodedBit L s p < 2 := natBit_lt_two _ _

theorem decodedByte_getLsbD (L : Latched) (s : State) (p : Nat) :
    (BitVec.ofNat 8 (decodedByte L s (p / 8))).getLsbD (p % 8) = decide (decodedBit L s p = 1) := by
  rw [decodedByte, byteOfBits_getLsbD (fun _ => decodedBit_lt_two L s _) (Nat.mod_lt p (by decide)), Nat.div_add_mod]

theorem packedBit_lt_two (L : Latched) (s : State) (p : Nat) : packedBit L s p < 2 := by
  unfold packedBit
  split
  · exact natBit_lt_two _ _
  · decide

/-- A packed byte is filled from its most significant bit down (43_codec.md R183). -/
theorem packedByte_getLsbD (L : Latched) (s : State) (p : Nat) :
    (BitVec.ofNat 8 (packedByte L s (p / 8))).getLsbD (7 - p % 8) = decide (packedBit L s p = 1) := by
  have hlsb : packedByte L s (p / 8) = sumTo (fun t => packedBit L s (8 * (p / 8) + (7 - t)) * 2 ^ t) 8 :=
    sumTo_reverse (fun t => packedBit L s (8 * (p / 8) + t)) 8
  have hp : 8 * (p / 8) + (7 - (7 - p % 8)) = p := by omega
  rw [hlsb, byteOfBits_getLsbD (fun _ => packedBit_lt_two L s _) (by omega), hp]

/-- Bit `l` of element `k` in the stream of R180. -/
theorem decodedBit_of_storedElem {L : Latched} {s : State} {k l v : Nat} (hl : l < L.B)
    (hv : storedElem s.lmem L.q (L.src0 + 2 * k) = some v) :
    decodedBit L s (k * L.B + l) = natBit (decodeElem L.D L.B v) l := by
  rw [decodedBit, rowMajor_div hl, rowMajor_mod hl, srcElem, elemOf_of_storedElem hv]

/-- Bit `l` of element `k`, counted from the most significant, in the stream of R183. -/
theorem packedBit_of_storedElem {L : Latched} {s : State} {k l v : Nat} (hk : k < L.N) (hl : l < L.D)
    (hv : storedElem s.lmem L.q (L.src0 + 2 * k) = some v) :
    packedBit L s (k * L.D + l) = natBit v (L.D - 1 - l) := by
  rw [packedBit, if_pos (rowMajor_lt hk hl), rowMajor_div hl, rowMajor_mod hl, srcElem, elemOf_of_storedElem hv]

theorem packedBit_of_padding {L : Latched} (s : State) {p : Nat} (hp : L.N * L.D ≤ p) : packedBit L s p = 0 :=
  if_neg (Nat.not_lt.2 hp)

/-- N is a multiple of 8, so the message bits fill whole bytes (43_codec.md R181). -/
theorem div_lt_messageLen {size : Nat} {L : Latched} (hg : needsGroupsOf8 L.op = true)
    (hc : issueCheck size L = none) {p : Nat} (hp : p < L.N * L.B) : p / 8 < L.messageLen := by
  obtain ⟨-, hd, -⟩ := issueCheck_eq_none.1 hc
  have hN : L.N % 8 = 0 := by
    simp only [Latched.dimBad, hg, Bool.true_and, Bool.or_eq_false_iff, bne_eq_false_iff_eq] at hd
    exact hd.2
  exact Nat.div_lt_div_of_lt_of_dvd ((Nat.dvd_of_mod_eq_zero hN).mul_right L.B) hp

/-- Settles O30: bit p mod 8 of output byte p div 8 is stream bit p, for p = k*B + l bit l of the decoded element k. -/
theorem cDecodeLaysOutRoundedBits : Obligations.CDecodeLaysOutRoundedBits := by
  intro s L h
  obtain ⟨t, ht, hw, hval⟩ := exec_of_storeByteRun h rfl
  obtain ⟨-, hop, hc⟩ := h
  refine ⟨t, ht, hw, fun k hk l hl v hv => ?_⟩
  refine ⟨_, hval _ (div_lt_messageLen (by rw [hop]; rfl) hc (rowMajor_lt hk hl)), ?_⟩
  rw [decodedByte_getLsbD, decodedBit_of_storedElem hl hv, decide_natBit_eq_one]
  rfl

/-- Settles O31: bit 7 - p mod 8 of output byte p div 8 is stream bit p, an element's bit below N*D and 0 from there. -/
theorem cPackLaysOutElementBits : Obligations.CPackLaysOutElementBits := by
  intro s L h
  obtain ⟨t, ht, hw, hval⟩ := exec_of_storeByteRun h rfl
  refine ⟨t, ht, hw, fun k hk l hl v hv => ?_, fun p hp hend => ?_⟩
  · have hp : k * L.D + l < L.R * L.C * L.D := rowMajor_lt hk hl
    have hlen : (k * L.D + l) / 8 < L.packedLen := by
      show _ < (L.R * L.C * L.D + 7) / 8
      omega
    refine ⟨_, hval _ hlen, ?_⟩
    rw [packedByte_getLsbD, packedBit_of_storedElem hk hl hv, decide_natBit_eq_one]
  · refine ⟨_, hval _ (Nat.div_lt_of_lt_mul hend), ?_⟩
    rw [packedByte_getLsbD, packedBit_of_padding s hp]
    rfl

/-! ### Raw little-endian form (43_codec.md R188 to R190) -/

theorem storedWord_of_lookup {m : Memory} {a : Nat} {b0 b1 : Byte} (h0 : Memory.lookup m a = some b0)
    (h1 : Memory.lookup m (a + 1) = some b1) : storedWord m a = some (b0.toNat + 256 * b1.toNat) := by
  simp only [storedWord, h0, h1]

/-- The two bytes of a stored word, the low one first. -/
theorem lookup_of_storedWord {m : Memory} {a x : Nat} (h : storedWord m a = some x) :
    Memory.lookup m a = some (BitVec.ofNat 8 (x % 256)) ∧
      Memory.lookup m (a + 1) = some (BitVec.ofNat 8 (x / 256)) := by
  unfold storedWord at h
  split at h
  · next b0 b1 h0 h1 =>
    cases h
    have hlt := b0.isLt
    have hlow : (b0.toNat + 256 * b1.toNat) % 256 = b0.toNat := by omega
    have hhigh : (b0.toNat + 256 * b1.toNat) / 256 = b1.toNat := by omega
    rw [h0, h1, hlow, hhigh, BitVec.ofNat_toNat, BitVec.ofNat_toNat, BitVec.setWidth_eq, BitVec.setWidth_eq]
    exact ⟨rfl, rfl⟩
  · cases h

/-- Settles O33: C_STORE_LE writes a run of two-byte words, C_LOAD_LE a run of reduced words. -/
theorem rawLittleEndianStoreAndLoad : Obligations.RawLittleEndianStoreAndLoad := by
  intro s L
  refine ⟨fun h => ⟨_, exec_of_ready h, ?_, fun k hk x hx => ?_⟩, fun h => ?_⟩
  · exact wroteRegion_of_writeBytes (flatMap_pairs_length _ (fun _ => leBytes_length 2 _) L.N) rfl rfl
  · have hword := storedWord_writePairs s.lmem L.dst (srcElem L s) hk (L.mod_q_lt _)
    rw [srcElem, elemOf_of_storedElem hx] at hword
    exact lookup_of_storedWord hword
  · obtain ⟨t, ht, hw, hval⟩ := exec_of_storeElems h rfl fun _ => L.mod_q_lt_q _
    refine ⟨t, ht, hw, fun k hk b0 b1 h0 h1 => ?_⟩
    rw [hval k hk, memRead_of_storedWord (storedWord_of_lookup h0 h1)]

/-! ### The round trips (43_codec.md R187) -/

/-- Settles O34: C_UNPACK takes from the stream the D bits that C_PACK laid out for the element, in the same order. -/
theorem unpackOfPackIsIdentity : Obligations.UnpackOfPackIsIdentity := by
  intro s t u v L M hs ht hu hmem hD hN hsrc hv k hk x hx
  obtain ⟨_, ht', -, hpack, -⟩ := cPackLaysOutElementBits s L hs
  cases ht'.symm.trans ht
  obtain ⟨_, hv', -, hunpack⟩ := cUnpackReadsElementBits u M hu
  cases hv'.symm.trans hv
  choose! b hb hbit using fun l (hl : l < L.D) => hpack k hk l hl x hx
  rw [hunpack k (hN ▸ hk) b (by rwa [hD, hmem, hsrc]), hD,
    Finset.sum_congr rfl fun l hl => by rw [hbit l (Finset.mem_range.1 hl)],
    sum_testBit_msbFirst (storedElem_lt L.q_pos_le.1 hx)]

/-- Decoding takes the B bits out of the high bits again. -/
theorem decodeElem_shift {d b v : Nat} (h : b < d) (hv : v < 2 ^ b) : decodeElem d b (v * 2 ^ (d - b)) = v := by
  have hhalf : 2 ^ (d - b - 1) < 2 ^ (d - b) := Nat.pow_lt_pow_right (by decide) (by omega)
  rw [decodeElem_eq h, rowMajor_div hhalf, Nat.mod_eq_of_lt hv]

/-- A location whose byte has the 8 bits of `b` holds `b`. -/
theorem Memory.lookup_of_bits {m : Memory} {a : Nat} {b : Byte}
    (h : ∀ t < 8, ∃ c, Memory.lookup m a = some c ∧ c.getLsbD t = b.getLsbD t) : Memory.lookup m a = some b := by
  obtain ⟨c, hc, -⟩ := h 0 (by decide)
  rw [hc]
  refine congrArg some (BitVec.eq_of_getLsbD_eq fun t ht => ?_)
  obtain ⟨c', hc', hbit⟩ := h t ht
  cases hc'.symm.trans hc
  exact hbit

/-- C_DECODE lays out again the B bits that an element carries in its high bits. -/
theorem cDecode_of_encodedElem {u v : State} {M : Latched} {k : Nat} {bits : Nat → Bool} (hu : u.ready .cDecode M)
    (hv : exec .cDecode u = .next v) (hk : k < M.R * M.C)
    (hx : storedElem u.lmem M.q (M.src0 + 2 * k) =
      some ((∑ l ∈ Finset.range M.B, (bits l).toNat * 2 ^ l) * 2 ^ (M.D - M.B))) :
    ∀ l < M.B, ∃ c, Memory.lookup v.lmem (M.dst + (k * M.B + l) / 8) = some c ∧
      c.getLsbD ((k * M.B + l) % 8) = bits l := by
  obtain ⟨_, hv', -, hdecode⟩ := cDecodeLaysOutRoundedBits u M hu
  cases hv'.symm.trans hv
  intro l hl
  obtain ⟨c, hlookup, hbit⟩ := hdecode k hk l hl _ hx
  refine ⟨c, hlookup, hbit.trans ?_⟩
  rw [← decodeElem, decodeElem_shift M.B_lt_D (sum_bits_lt bits M.B), testBit_sum_bits bits hl]

/-- Every stream position below n*B is bit `l` of one element `k`. -/
theorem forall_stream {n B : Nat} {P : Nat → Prop} (h : ∀ k < n, ∀ l < B, P (k * B + l)) : ∀ p < n * B, P p := by
  intro p hp
  have hk : p / B < n := Nat.div_lt_of_lt_mul (by rwa [Nat.mul_comm])
  have hl : p % B < B := Nat.mod_lt p (Nat.pos_of_lt_mul_left hp)
  rw [← Nat.div_add_mod' p B]
  exact h _ hk _ hl

/-- Settles O35: each message bit goes into one element and comes back from it to the same place of the stream. -/
theorem decodeOfEncodeIsIdentity : Obligations.DecodeOfEncodeIsIdentity := by
  intro s t u v L M hs ht hu hmem hD hB hN hsrc hv hwritten j hj
  obtain ⟨_, ht', -, hencode⟩ := cEncodePlacesMessageBits s L hs
  cases ht'.symm.trans ht
  obtain ⟨-, hop, hcheck⟩ := hs
  choose! b hb using fun i (hi : i < L.messageLen) => Memory.lookup_of_written hwritten hi
  have hbyte : ∀ p < L.R * L.C * L.B, Memory.lookup s.lmem (L.src0 + p / 8) = some (b (p / 8)) :=
    fun p hp => hb _ (div_lt_messageLen (by rw [hop]; rfl) hcheck hp)
  have hbit : ∀ p < L.R * L.C * L.B, ∃ c, Memory.lookup v.lmem (M.dst + p / 8) = some c ∧
      c.getLsbD (p % 8) = (b (p / 8)).getLsbD (p % 8) := by
    refine forall_stream fun k hk => ?_
    have helem := storedElem_of_storedWord
      (hencode k hk (fun l => b ((k * L.B + l) / 8)) fun l hl => hbyte _ (rowMajor_lt hk hl))
      (L.shift_lt_q (sum_bits_lt _ L.B))
    have hdecode := cDecode_of_encodedElem (k := k)
      (bits := fun l => (b ((k * L.B + l) / 8)).getLsbD ((k * L.B + l) % 8))
      hu hv (hN ▸ hk) (by rwa [hmem, hsrc, Latched.q, hD, hB])
    rwa [hB] at hdecode
  rw [hb j hj]
  refine Memory.lookup_of_bits fun t ht => ?_
  have hdiv : (8 * j + t) / 8 = j := by omega
  have hmod : (8 * j + t) % 8 = t := by omega
  have h := hbit (8 * j + t) (by omega)
  rwa [hdiv, hmod] at h

end Sys2Proof.Machine

/-! PROOFS. The issue checks (60_exceptions.md R221) in plain arithmetic: each check as a proposition, then all five for
a command by the shape of its row in 30_encoding.md R84, how many sources it has and whether it has a destination. -/

namespace Sys2Proof.Machine

/-! ### Each check as a proposition -/

@[simp] theorem Latched.cfgBad_iff (L : Latched) :
    L.cfgBad = true ↔ (usesB L.op = true ∧ L.B ≠ 2 ∧ L.B ≠ 3 ∧ L.B ≠ 4) ∨
      (usesPset L.op = true ∧ L.regs.cfg.pset = 3) := by
  simp [Latched.cfgBad, and_assoc]

/-- Check 3 comes first. -/
theorem issueCheck_of_cfgBad {L : Latched} (size : Nat) (h : L.cfgBad = true) : issueCheck size L = some .badCfg :=
  if_pos h

/-- A command on matrices of R rows and C columns. -/
theorem Latched.dimBad_of_rows_cols {L : Latched} (hdims : L.dims = [L.R, L.C]) :
    L.dimBad = true ↔ L.R = 0 ∨ L.C = 0 ∨ (needsGroupsOf8 L.op = true ∧ L.R * L.C % 8 ≠ 0) := by
  simp [Latched.dimBad, hdims, Latched.N, or_assoc]

/-- M_MUL uses INNER too. -/
theorem Latched.dimBad_of_rows_cols_inner {L : Latched} (hdims : L.dims = [L.R, L.C, L.K])
    (hgroups : needsGroupsOf8 L.op = false) : L.dimBad = true ↔ L.R = 0 ∨ L.C = 0 ∨ L.K = 0 := by
  simp [Latched.dimBad, hdims, hgroups]

@[simp] theorem Region.inside_eq_false_iff (r : Region) (size : Nat) :
    r.inside size = false ↔ size < r.base + r.len := by
  simp [Region.inside]

@[simp] theorem OverlapRule.broken_disjoint_iff (d r : Region) :
    OverlapRule.disjoint.broken d r = true ↔ d.base < r.base + r.len ∧ r.base < d.base + d.len := by
  simp [OverlapRule.broken, Region.overlaps]

@[simp] theorem OverlapRule.broken_exactOrDisjoint_iff (d r : Region) :
    OverlapRule.exactOrDisjoint.broken d r = true ↔
      d.base ≠ r.base ∧ d.base < r.base + r.len ∧ r.base < d.base + d.len := by
  simp [OverlapRule.broken, Region.overlaps, and_comm]

/-! ### The five checks by the shape of the row -/

/-- Two sources and no destination: nothing can overlap. -/
theorem issueCheck_of_two_sources {L : Latched} {r₀ r₁ : Region} (size : Nat) (hs : L.sources = [r₀, r₁])
    (hd : L.dest = none) {dim : Prop} [Decidable dim] (hdim : L.dimBad = true ↔ dim) :
    issueCheck size L =
      if L.cfgBad then some .badCfg
      else if dim then some .badDim
      else if (r₀.elem ∧ r₀.base % 2 = 1) ∨ (r₁.elem ∧ r₁.base % 2 = 1) then some .misaligned
      else if size < r₀.base + r₀.len ∨ size < r₁.base + r₁.len then some .outOfRange
      else none := by
  simp [issueCheck, Latched.misaligned, Latched.outOfRange, Latched.overlapBad, Latched.regions, hs, hd, hdim]

/-- One source and a destination. -/
theorem issueCheck_of_source_dest {L : Latched} {r d : Region} (size : Nat) (hs : L.sources = [r])
    (hd : L.dest = some d) {dim : Prop} [Decidable dim] (hdim : L.dimBad = true ↔ dim) :
    issueCheck size L =
      if L.cfgBad then some .badCfg
      else if dim then some .badDim
      else if (r.elem ∧ r.base % 2 = 1) ∨ (d.elem ∧ d.base % 2 = 1) then some .misaligned
      else if size < r.base + r.len ∨ size < d.base + d.len then some .outOfRange
      else if (overlapRule L.op).broken d r then some .overlap
      else none := by
  simp [issueCheck, Latched.misaligned, Latched.outOfRange, Latched.overlapBad, Latched.regions, hs, hd, hdim]

/-- Two sources and a destination. -/
theorem issueCheck_of_two_sources_dest {L : Latched} {r₀ r₁ d : Region} (size : Nat) (hs : L.sources = [r₀, r₁])
    (hd : L.dest = some d) {dim : Prop} [Decidable dim] (hdim : L.dimBad = true ↔ dim) :
    issueCheck size L =
      if L.cfgBad then some .badCfg
      else if dim then some .badDim
      else if (r₀.elem ∧ r₀.base % 2 = 1) ∨ (r₁.elem ∧ r₁.base % 2 = 1) ∨ (d.elem ∧ d.base % 2 = 1)
        then some .misaligned
      else if size < r₀.base + r₀.len ∨ size < r₁.base + r₁.len ∨ size < d.base + d.len then some .outOfRange
      else if (overlapRule L.op).broken d r₀ ∨ (overlapRule L.op).broken d r₁ then some .overlap
      else none := by
  simp [issueCheck, Latched.misaligned, Latched.outOfRange, Latched.overlapBad, Latched.regions, hs, hd, hdim]

/-! ### The statements -/

/-- Settles O9: a command without a region can fail check 3 only, by a reserved B or PSET that it uses. -/
theorem scalarIssueChecks : Obligations.ScalarIssueChecks := by
  intro size L
  refine ⟨fun ho => ?_, fun ho => ?_, fun ho => ?_⟩
  · have unused : ∀ i ∈ [Instr.nop, .eRed, .eAdd, .eSub, .eNeg, .eMul, .eEq, .eCteq],
        i ∈ ringCommands ∧ usesB i = false := by decide
    obtain ⟨hring, hB⟩ := unused L.op ho
    exact issueCheck_of_ring size hring (.inl hB)
  · have used : ∀ i ∈ [Instr.eEnc, .eDec], i ∈ ringCommands ∧ usesB i = true := by decide
    obtain ⟨hring, hB⟩ := used L.op ho
    split
    · next hlegal => exact issueCheck_of_ring size hring (.inr hlegal)
    · next hbad => exact issueCheck_of_cfgBad size (L.cfgBad_iff.2 (.inl ⟨hB, by simpa using hbad⟩))
  · split
    · next hpset => exact issueCheck_of_cfgBad size (L.cfgBad_iff.2 (.inr ⟨by rw [ho]; rfl, hpset⟩))
    · next hpset => exact issueCheck_of_sSample size ho hpset

/-- Settles O10, row by row of 30_encoding.md R84: M_ADD and M_SUB may work in place, M_MUL and M_TRANSPOSE may not, and
M_EQ and M_CTEQ have no destination. -/
theorem matrixIssueChecks : Obligations.MatrixIssueChecks := by
  rintro size ⟨op, regs⟩
  refine ⟨fun ho => ?_, ?_, ?_, fun ho => ?_⟩
  · simp only [List.mem_cons, List.not_mem_nil, or_false] at ho
    rcases ho with rfl | rfl
    all_goals
      rw [issueCheck_of_two_sources_dest size rfl rfl (Latched.dimBad_of_rows_cols rfl)]
      simp [usesB, usesPset, needsGroupsOf8, elemRegion, Latched.N, overlapRule]
  · rintro rfl
    rw [issueCheck_of_two_sources_dest size rfl rfl (Latched.dimBad_of_rows_cols_inner rfl rfl)]
    simp [usesB, usesPset, elemRegion, Latched.N, overlapRule]
  · rintro rfl
    rw [issueCheck_of_source_dest size rfl rfl (Latched.dimBad_of_rows_cols rfl)]
    simp [usesB, usesPset, needsGroupsOf8, elemRegion, Latched.N, overlapRule]
  · simp only [List.mem_cons, List.not_mem_nil, or_false] at ho
    rcases ho with rfl | rfl
    all_goals
      rw [issueCheck_of_two_sources size rfl rfl (Latched.dimBad_of_rows_cols rfl)]
      simp [usesB, usesPset, needsGroupsOf8, elemRegion, Latched.N] <;> rfl

/-- Settles O11, row by row of 30_encoding.md R83, R84: each of the seven commands has one source and a destination, one
of them or both a run of bytes. -/
theorem samplerAndCodecIssueChecks : Obligations.SamplerAndCodecIssueChecks := by
  rintro size ⟨op, regs⟩
  refine ⟨fun ho => ?_, ?_, ?_, ?_, ?_, ?_⟩
  · simp only [List.mem_cons, List.not_mem_nil, or_false] at ho
    rcases ho with rfl | rfl
    all_goals
      rw [issueCheck_of_source_dest size rfl rfl (Latched.dimBad_of_rows_cols rfl)]
      simp [usesB, usesPset, needsGroupsOf8, elemRegion, byteRegion, Latched.N, overlapRule]
  all_goals
    rintro rfl
    rw [issueCheck_of_source_dest size rfl rfl (Latched.dimBad_of_rows_cols rfl)]
    simp [usesB, usesPset, needsGroupsOf8, elemRegion, byteRegion, Latched.N, Latched.messageLen,
      Latched.packedLen, overlapRule]

end Sys2Proof.Machine

/-! PROOFS. The life of a command (60_exceptions.md R220 to R230): which step runs it, what refuses it, what its
completion leaves unchanged, and why a completion cannot fail. -/

namespace Sys2Proof.Machine

/-! ### What an issue, a STATUS write and an effect keep -/

@[simp] theorem issue_done (s : State) (i : Instr) : (s.issue i).done = s.done := by
  rcases issue_cases s i with ⟨e, _, h⟩ | ⟨_, h⟩ <;> rw [h]
  rfl

/-- An issue keeps the recorded code of an error that is still recorded (60_exceptions.md R222). -/
theorem issue_errcode_of_err {s : State} (i : Instr) (he : s.err = true) : (s.issue i).errcode = s.errcode := by
  rcases issue_cases s i with ⟨e, _, h⟩ | ⟨_, h⟩ <;> rw [h]
  simp [he]

/-- A STATUS write that leaves ERR at 1 leaves its code too (60_exceptions.md R226). -/
theorem clearStatus_errcode_of_err {s : State} {w : Word} (h : (s.clearStatus w).err = true) :
    (s.clearStatus w).errcode = s.errcode := by
  simp only [State.clearStatus_err, Bool.and_eq_true, Bool.not_eq_true'] at h
  obtain ⟨_, hkept⟩ := h
  exact if_neg (ne_true_of_eq_false hkept)

section Effect

variable (i : Instr) (L : Latched) (s : State)

@[simp] theorem effectOf_ie : (effectOf i L s).ie = s.ie := by rw [effectOf_frame]
@[simp] theorem effectOf_err : (effectOf i L s).err = s.err := by rw [effectOf_frame]
@[simp] theorem effectOf_errcode : (effectOf i L s).errcode = s.errcode := by rw [effectOf_frame]
@[simp] theorem effectOf_regs : (effectOf i L s).regs = s.regs := by rw [effectOf_frame]
@[simp] theorem effectOf_inReset : (effectOf i L s).inReset = s.inReset := by rw [effectOf_frame]
@[simp] theorem effectOf_stalled : (effectOf i L s).stalled = s.stalled := by rw [effectOf_frame]
@[simp] theorem effectOf_resp : (effectOf i L s).resp = s.resp := by rw [effectOf_frame]
@[simp] theorem effectOf_inputs : (effectOf i L s).inputs = s.inputs := by rw [effectOf_frame]

end Effect

/-- No byte outside the destination is written (60_exceptions.md R230). -/
theorem effectOf_lookup {i : Instr} {L : Latched} (s : State) {a : Nat} (hi : L.op = i)
    (ha : ∀ r, L.dest = some r → r.covers a = false) :
    Memory.lookup (effectOf i L s).lmem a = Memory.lookup s.lmem a := by
  rcases effectOf_lmem i L s hi with ⟨_, hm⟩ | ⟨r, bs, hd, hl, hm⟩
  · rw [hm]
  · rw [hm, Memory.lookup_writeBytes, hl, if_neg ((Region.covers_eq_false r a).1 (ha r hd))]

/-! ### What a command's step can be -/

/-- A step of a command completes it, or changes no more than the recorded error and the command in flight. -/
theorem exec_next_frame {i : Instr} {s t : State} (h : exec i s = .next t) :
    (∃ L, s.ready i L ∧ t = (effectOf i L s).finish) ∨
    ((∀ L, ¬s.ready i L) ∧ t = { s with err := t.err, errcode := t.errcode, inflight := t.inflight }) := by
  rcases exec_next_cases h with ⟨h0, rfl⟩ | hready | ⟨L, hL, hne, rfl⟩
  · refine .inr ⟨fun L hL => (by cases h0.symm.trans hL.1), ?_⟩
    rcases issue_cases s i with ⟨e, _, he⟩ | ⟨_, he⟩ <;> rw [he]
    rfl
  · exact .inl hready
  · refine .inr ⟨fun L' hL' => ?_, rfl⟩
    obtain ⟨hL', hop, _⟩ := hL'
    cases hL.symm.trans hL'
    exact hne hop

/-- The commands of the statement that keep RES are those that do not write it (30_encoding.md R83). -/
theorem writesRes_of_lmem_only : ∀ i ∈ [Instr.nop, .mAdd, .mSub, .mMul, .mTranspose, .sSampleMat, .cEncode, .cDecode,
    .cPack, .cUnpack, .cStoreLe, .cLoadLe], writesRes i = false := by decide

/-- M_MUL reads two elements for each product (41_matrix.md R134). -/
theorem Latched.reads_of_mMul {L : Latched} (hop : L.op = .mMul) : L.reads = 4 * (L.R * L.C * L.K) := by
  simp [Latched.reads, hop, Latched.N]

/-- Settles O36: a completion is its command's effect, and any other step of a command leaves everything the statement
speaks of as it is. -/
theorem frameOfEveryCommand : Obligations.FrameOfEveryCommand := by
  intro i s t h
  rcases exec_next_frame h with ⟨L, hready, rfl⟩ | ⟨hno, ht⟩
  · have latched {L' i'} (h' : s.ready i' L') : L' = L := Option.some.inj (h'.1.symm.trans hready.1)
    obtain ⟨hL, hop, hc⟩ := hready
    have hdraws : (effectOf i L s).draws = s.draws + L.reads := effectOf_draws s hop
    refine ⟨effectOf_regs i L s, effectOf_ie i L s, effectOf_inReset i L s, effectOf_stalled i L s, effectOf_resp i L s,
      effectOf_inputs i L s, effectOf_params i L s, fun _ => rfl, fun h0 => (by cases h0.symm.trans hL),
      fun hi => effectOf_res L s (writesRes_of_lmem_only i hi),
      fun _ _ => ⟨effectOf_err i L s, effectOf_errcode i L s⟩, ?_, fun L' h' => ?_, fun L' h' hi => ?_,
      fun a ha => effectOf_lookup s hop fun r hr => ha L r hL hr⟩
    all_goals rw [State.finish_draws, hdraws]
    · exact Nat.le_add_right ..
    · rw [latched h']
      exact Nat.add_le_add_left (sources_le_reads hc) _
    · rw [latched h', Latched.reads_of_mMul (hop.trans hi)]
  · rw [ht]
    exact ⟨rfl, rfl, rfl, rfl, rfl, rfl, rfl, id, fun _ => ⟨rfl, rfl, rfl⟩, fun _ => rfl, fun L hL => absurd hL (hno L),
      le_rfl, fun L hL => absurd hL (hno L), fun L hL hi => absurd (hi ▸ hL) (hno L), fun _ _ => rfl⟩

/-- Settles O8: with nothing in flight the command is issued, and the failed check decides the code. -/
theorem refusedIssueOnlyRecordsError : Obligations.RefusedIssueOnlyRecordsError := by
  intro s i e h0 he
  rw [exec_of_idle i h0]
  rcases issue_cases s i with ⟨e', he', h⟩ | ⟨hc, _⟩
  · cases he.symm.trans he'
    rw [h]
    cases e <;> rfl
  · cases he.symm.trans hc

/-! ### The step that runs a command -/

theorem commandWrite_of_command {w : Word} {s : State} {i : Instr} (hb : s.busy = false) (hi : decode w = .ok i) :
    commandWrite w s = exec i s := by
  simp [commandWrite, hb, hi]

theorem engineTurn_of_idle {s : State} (h : s.inflight = none) : engineTurn s = .next s := by
  simp [engineTurn, h]

/-- Settles O4: past checks 1 and 2 a CMD write is the command itself. -/
theorem cmdWriteRunsDecodedCommand : Obligations.CmdWriteRunsDecodedCommand :=
  fun _ _ _ _ hs hb hi hd => (step_cmdWrite hs hi).trans (commandWrite_of_command hb hd)

/-- Settles O5: the engine's turn, whether it is an input or comes for want of one, looks only at what is in flight. -/
theorem engineTurnRunsCommandInFlight : Obligations.EngineTurnRunsCommandInFlight := by
  intro s hs
  refine ⟨fun L hL => ⟨fun hi => ?_, fun rest hi => ?_⟩, fun h0 => ⟨fun hi => ?_, fun rest hi => ?_⟩⟩
  · exact (step_engine hs hi).trans (engineTurn_of_inflight hL)
  · exact (step_takeInput hs hi).trans (engineTurn_of_inflight hL)
  · exact (step_engine hs hi).trans (engineTurn_of_idle h0)
  · exact (step_takeInput hs hi).trans (engineTurn_of_idle h0)

/-- Settles O52: the write comes first, and the engine's turn follows from the state so cleared. -/
theorem completionWinsOverClear : Obligations.CompletionWinsOverClear := by
  intro s w rest hs hi cleared
  have hstep : step s = engineTurn cleared :=
    (step_takeInput hs hi).trans (congrArg engineTurn (State.clearStatus_eq_ite (s.took rest) w))
  refine ⟨fun hb => ?_, fun L hL => ⟨?_, fun hready => ?_⟩⟩
  · have h0 : cleared.inflight = none := by simpa [State.busy] using hb
    exact hstep.trans (engineTurn_of_idle h0)
  · exact hstep.trans (engineTurn_of_inflight (s := cleared) hL)
  · have hcleared : cleared.ready L.op L := hready
    refine ⟨_, (hstep.trans (engineTurn_of_inflight hcleared.1)).trans (exec_of_ready hcleared), rfl, rfl,
      effectOf_inputs L.op L cleared, fun hw => ⟨?_, ?_⟩, fun hw => ⟨?_, ?_⟩⟩
    · exact (effectOf_err L.op L cleared).trans (if_pos hw)
    · exact (effectOf_errcode L.op L cleared).trans (if_pos hw)
    · exact (effectOf_err L.op L cleared).trans (if_neg (ne_true_of_eq_false hw))
    · exact (effectOf_errcode L.op L cleared).trans (if_neg (ne_true_of_eq_false hw))

/-! ### DONE and the recorded error over every step -/

/-- Settles O37, by the cause of the step: completions set DONE and end the command, STATUS writes clear DONE, resets do
both, and no other cause touches DONE or ends a command. -/
theorem doneSetByCompletionOnly : Obligations.DoneSetByCompletionOnly := by
  intro s t h
  refine ⟨fun hb ht => ?_, fun hd ht => ?_, fun hd ht => ?_⟩
  · cases step_result h with
    | quiet _ _ _ _ _ hfl => cases ht.symm.trans ((congrArg Option.isSome hfl).trans hb)
    | completed | clearedCompleted => exact .inl rfl
    | cleared r w | raised r e => cases hb.symm.trans ht
    | issued r i h0 => simp [State.busy, h0] at hb
    | softReset r w hs hi hw => exact .inr ⟨r, .inr ⟨hs, w, hw, hi⟩⟩
    | hardReset r hi => exact .inr ⟨r, .inl hi⟩
  · cases step_result h with
    | quiet _ hdone => cases (hdone.trans hd).symm.trans ht
    | completed r L hL | clearedCompleted r w L _ _ hL => exact ⟨busy_of_inflight hL.1, rfl⟩
    | cleared r w => simp [State.took, hd] at ht
    | raised r e => cases hd.symm.trans ht
    | issued r i => cases ((issue_done (s.took r) i).trans hd).symm.trans ht
    | softReset | hardReset => cases ht
  · cases step_result h with
    | quiet _ hdone => cases (hdone.trans hd).symm.trans ht
    | completed | clearedCompleted => cases ht
    | cleared r w hs hi =>
      have hw : w.getLsbD 1 = true := by simpa [State.took, hd] using ht
      exact ⟨r, .inl ⟨hs, w, hw, hi.imp_right .inl⟩⟩
    | raised r e => cases hd.symm.trans ht
    | issued r i => cases ((issue_done (s.took r) i).trans hd).symm.trans ht
    | softReset r w hs hi hw => exact ⟨r, .inl ⟨hs, w, hw, .inr (.inr hi)⟩⟩
    | hardReset r hi => exact ⟨r, .inr hi⟩

/-- Settles O38, by the cause of the step: the error action keeps the first code, and what clears it clears ERR. -/
theorem firstErrorCodeIsKept : Obligations.FirstErrorCodeIsKept := by
  intro s t h he ht
  cases step_result h with
  | quiet _ _ _ hcode => exact hcode
  | completed r L => exact effectOf_errcode L.op L _
  | clearedCompleted r w L =>
    exact (effectOf_errcode L.op L _).trans (clearStatus_errcode_of_err ((effectOf_err L.op L _).symm.trans ht))
  | cleared r w => exact clearStatus_errcode_of_err (s := s.took r) ht
  | raised r e => exact if_pos he
  | issued r i => exact issue_errcode_of_err (s := s.took r) i he
  | softReset | hardReset => cases ht

/-! ### When a step stops -/

/-- A latched command that did not pass its checks has no completion (log 3). -/
theorem exec_of_unchecked {s : State} {L : Latched} {e : ErrCode} (h : s.inflight = some L)
    (he : issueCheck s.params.lmemSize L = some e) : exec L.op s = .fault .completionUnchecked := by
  simp [exec_eq_runCommand, runCommand, h, he]

/-- Settles O60: the completion finds the failed check, and each of the host's inputs is a stop in reset. -/
theorem namedStops : Obligations.NamedStops := by
  refine ⟨fun s L e h he => exec_of_unchecked h he, fun s i rest hr hi hhost => ?_⟩
  rw [step_of_inReset hr, stepInReset, hi]
  rcases hhost with ⟨a, rfl⟩ | ⟨a, rfl⟩ | ⟨w, rfl⟩ <;> rfl

/-! ### A step of a checked block -/

/-- A CMD write is answered whatever the word and the block. -/
theorem commandWrite_next (w : Word) (s : State) : ∃ t, commandWrite w s = .next t := by
  cases hb : s.busy with
  | true => exact ⟨_, commandWrite_of_busy w hb⟩
  | false =>
    cases hd : decode w with
    | error e => exact ⟨_, commandWrite_of_illegal hb hd⟩
    | ok i => exact ⟨_, (commandWrite_of_command hb hd).trans (exec_of_idle i (by simpa [State.busy] using hb))⟩

theorem csrAccess_next (a : CsrAccess) (s : State) : ∃ t, csrAccess a s = .next t := by
  cases a <;> simp only [csrAccess] <;> split
  case write.isTrue =>
    split
    · exact commandWrite_next _ _
    all_goals exact ⟨_, rfl⟩
  all_goals exact ⟨_, rfl⟩

section Checked

variable {s : State} (hc : ∀ L, s.inflight = some L → issueCheck s.params.lmemSize L = none)
include hc

/-- The engine's turn completes a command that passed its checks (60_exceptions.md R224). -/
theorem engineTurn_completes : ∃ t, engineTurn s = .next t ∧ t.busy = false := by
  cases h : s.inflight with
  | none => exact ⟨s, engineTurn_of_idle h, by simp [State.busy, h]⟩
  | some L => exact ⟨_, (engineTurn_of_inflight h).trans (exec_of_ready ⟨h, rfl, hc L h⟩), rfl⟩

theorem engineTurn_next : ∃ t, engineTurn s = .next t := (engineTurn_completes hc).imp fun _ h => h.1

theorem takeInput_next (i : Input) : ∃ t, takeInput i s = .next t := by
  cases i with
  | csr a => exact csrAccess_next a s
  | lmem a =>
    simp only [takeInput]
    split <;> exact ⟨_, rfl⟩
  | engine => exact engineTurn_next hc
  | statusWriteAtCompletion w => exact engineTurn_next (s := (s.answer .written).clearStatus w) hc
  | resetAssert | resetRelease => exact ⟨_, rfl⟩

theorem stepRunning_next : ∃ t, stepRunning s = .next t := by
  unfold stepRunning
  split
  · exact engineTurn_next hc
  · next i rest _ => exact takeInput_next (s := { s with inputs := rest }) hc i

theorem stepStalled_next (a : LmemAccess) : ∃ t, stepStalled a s = .next t := by
  unfold stepStalled
  split
  · exact ⟨_, rfl⟩
  · next rest _ =>
    split
    · exact engineTurn_next (s := { s with inputs := rest }) hc
    · exact ⟨_, rfl⟩
  · split
    · exact engineTurn_next hc
    · exact ⟨_, rfl⟩

/-- Only a host access in reset stops a step (70_reset_and_hazards.md R250). -/
theorem step_next_or_fault : (∃ t, step s = .next t) ∨ (s.inReset = true ∧ step s = .fault .hostAccessInReset) := by
  cases hr : s.inReset with
  | true =>
    rw [step_of_inReset hr, stepInReset]
    split
    case h_5 | h_6 | h_7 => exact .inr ⟨rfl, rfl⟩
    all_goals exact .inl ⟨_, rfl⟩
  | false =>
    left
    rcases Option.eq_none_or_eq_some s.stalled with ha | ⟨a, ha⟩
    · rw [step_of_running ⟨hr, ha⟩]
      exact stepRunning_next hc
    · rw [step_of_stalled hr ha]
      exact stepStalled_next hc a

end Checked

/-- Settles O59: the invariant says that the command in flight passed its checks. -/
theorem completionCannotFail : Obligations.CompletionCannotFail := by
  intro s hinv
  refine ⟨engineTurn_completes hinv.checked, fun f hf => ?_, fun r hr => ?_⟩
  · rcases step_next_or_fault hinv.checked with ⟨t, h⟩ | ⟨hreset, h⟩
    · cases hf.symm.trans h
    · cases hf.symm.trans h
      exact ⟨hreset, rfl⟩
  · rcases step_next_or_fault hinv.checked with ⟨t, h⟩ | ⟨_, h⟩ <;> cases hr.symm.trans h

/-! ### Accesses that are not admitted (60_exceptions.md R236) -/

theorem csrAdmitted_eq_false {width offset : Nat} (h : width ≠ 4 ∨ offset % 4 ≠ 0 ∨ 0x1000 ≤ offset) :
    csrAdmitted width offset = false := by
  rcases h with h | h | h <;> simp [csrAdmitted, h]

theorem lmemAdmitted_eq_false {size n a : Nat} (h : (n ≠ 1 ∧ n ≠ 2 ∧ n ≠ 4) ∨ a % n ≠ 0 ∨ size < a + n) :
    lmemAdmitted size n a = false := by
  rcases h with h | h | h <;> simp [lmemAdmitted, h]

/-- Settles O47: read or write, register or LMEM, the access is answered with a bus error. -/
theorem inadmissibleAccessIsBusError : Obligations.InadmissibleAccessIsBusError := by
  intro s rest hs refused
  refine ⟨fun width offset h => ?_, fun hb n a h => ?_⟩
  · have hadm := ne_true_of_eq_false (csrAdmitted_eq_false h)
    exact ⟨fun hi => (step_takeInput hs hi).trans (if_neg hadm), fun w hi => (step_takeInput hs hi).trans (if_neg hadm)⟩
  · have hadm := ne_true_of_eq_false (lmemAdmitted_eq_false h)
    exact ⟨fun hi => (step_lmemAccess hs hb hi).trans (congrArg Host.Outcome.next (if_neg hadm)),
      fun w hi => (step_lmemAccess hs hb hi).trans (congrArg Host.Outcome.next (if_neg hadm))⟩

end Sys2Proof.Machine

/-! PROOFS. The two resets: what the abandoned destination holds after a soft reset, and the steps around the edges of
rst_n. -/

namespace Sys2Proof.Machine

/-! ### The abandoned destination (70_reset_and_hazards.md R254) -/

theorem freeBytes_getElem? {n k : Nat} (d : Nat) (h : k < n) :
    (freeBytes d n)[k]? = some (Config.freeByte (d + k)) := by
  simp [freeBytes, h]

/-- Byte k of the abandoned destination is draw number k of the soft reset. -/
theorem softReset_lookup_abandoned {s : State} {k : Nat} (hk : k < s.abandonedRegion.len) :
    Memory.lookup s.softReset.lmem (s.abandonedRegion.base + k) = some (Config.freeByte (s.draws + k)) := by
  rw [State.softReset_lmem, Memory.lookup_writeBytes, freeBytes_length, if_pos (by omega), Nat.add_sub_cancel_left,
    freeBytes_getElem? _ hk]

theorem abandonedRegion_of_dest {s : State} {L : Latched} {r : Region} (hL : s.inflight = some L)
    (hr : L.dest = some r) : s.abandonedRegion = r := by
  simp [State.abandonedRegion, hL, hr]

/-- The abandoned region is the destination of the command in flight; without one it is empty and covers no byte. -/
theorem abandonedRegion_covers_eq_false {s : State} {a : Nat}
    (h : ∀ L r, s.inflight = some L → L.dest = some r → r.covers a = false) :
    s.abandonedRegion.covers a = false := by
  have hempty : (byteRegion 0 0).covers a = false :=
    (Region.covers_eq_false _ a).2 fun hlt => Nat.not_lt_zero a hlt.2
  unfold State.abandonedRegion
  split
  · exact hempty
  · next L hL =>
    cases hd : L.dest with
    | none => exact hempty
    | some r => exact h L r hL hd

/-- Settles O54: the write of CTRL is the soft reset, and every byte lies inside or outside the abandoned region. -/
theorem softResetAbandonsCommand : Obligations.SoftResetAbandonsCommand := by
  intro s w rest hs hi hw
  refine ⟨(s.took rest).softReset, ?_, rfl, fun L r hL hr k hk => ?_, fun a ha => ?_⟩
  · rw [step_csrWrite .ctrl hs hi rfl rfl nofun]
    exact congrArg Host.Outcome.next (if_pos hw)
  · have hregion : (s.took rest).abandonedRegion = r := abandonedRegion_of_dest hL hr
    subst hregion
    exact ⟨softReset_lookup_abandoned hk, Nat.add_lt_add_left hk s.draws⟩
  · exact softReset_lookup (s := s.took rest) (abandonedRegion_covers_eq_false ha)

/-! ### The edges of rst_n (70_reset_and_hazards.md R250, R251) -/

/-- rst_n goes low whether or not the bus holds an access (20_memory.md R69). -/
theorem step_resetAssert {s : State} {rest : List Input} (hr : s.inReset = false)
    (hi : s.inputs = .resetAssert :: rest) : step s = .next ({ s with inputs := rest } : State).hardReset := by
  rcases Option.eq_none_or_eq_some s.stalled with ha | ⟨a, ha⟩
  · exact step_takeInput ⟨hr, ha⟩ hi
  · simp only [step_of_stalled hr ha, stepStalled, hi]

/-- The release of rst_n changes the level and nothing else. -/
theorem step_resetRelease {s : State} {rest : List Input} (hr : s.inReset = true)
    (hi : s.inputs = .resetRelease :: rest) : step s = .next { s with inReset := false, inputs := rest } := by
  simp only [step_of_inReset hr, stepInReset, hi]

theorem State.hardReset_atReset (s : State) : s.hardReset.atReset := ⟨rfl, rfl, rfl, rfl, rfl, rfl, rfl, rfl, rfl⟩

/-- Settles O55, clause by clause: the assertion, the release, an input without effect while low, no input, a release
while high, and the assertion followed by the release. -/
theorem hardwareResetFromAnyState : Obligations.HardwareResetFromAnyState := by
  intro s rest held
  refine ⟨fun hr hi => ?_, step_resetRelease, fun hr hi => ?_, fun hr hi => ?_, fun hs hi => step_takeInput hs hi,
    fun hr hi => ?_⟩
  · exact ⟨step_resetAssert hr hi, State.hardReset_atReset { s with inputs := rest }⟩
  · rcases hi with hi | hi <;> simp only [step_of_inReset hr, stepInReset, hi]
  · simp only [step_of_inReset hr, stepInReset, hi]
  · exact ⟨_, _, step_resetAssert hr hi, rfl, State.hardReset_atReset _, step_resetRelease rfl rfl, rfl⟩

end Sys2Proof.Machine
